-- ==== Sys2Proof/Word.lean ====
section
/-! DEFINITION. The word type of the engine (00_scope.md R8): every value is an unsigned 32-bit word unless a rule
states its width. Bit 0 is the least significant bit. The operators of 00_scope.md R9 are those of `BitVec 32`:
addition, multiplication and left shift drop what leaves bit 31, the right shift is the logical one. -/

namespace Sys2Proof

/-- An unsigned 32-bit word (`u32`, 00_scope.md R8). -/
abbrev Word := BitVec 32

/-- One of a word's four bytes on a byte-addressed bus (20_memory.md R52); nothing inside the engine is a byte. -/
abbrev Byte := BitVec 8

end Sys2Proof
end

