-- ==== Sys2Proof/Syntax.lean ====
section
/-! DEFINITION. The commands of MTE-CMD version 1 (30_encoding.md R75), one constructor per row of the opcode table.
A command is its command word's fields and, where the command uses it, the data operand (R79). Every operand has
exactly the width of its field (R74), so every term of `Instr` is a well-formed command. -/

namespace Sys2Proof

/-- One command of the engine. -/
inductive Instr where
  /-- `SEED v` (40_generator.md R105): `data` is the seed. -/
  | seed (data : Word)
  /-- `NEXT` (40_generator.md R106). -/
  | next
  /-- `TEMPER v` (40_generator.md R107): `data` is the value to temper. -/
  | temper (data : Word)
  /-- `UNTEMPER v` (41_recoverer.md R142): `data` is the value to untemper. -/
  | untemper (data : Word)
  /-- `INJ.START` (41_recoverer.md R143). -/
  | injStart
  /-- `INJ.WORD v` (`u = false`) and `INJ.WORD.U v` (`u = true`) (41_recoverer.md R144, 30_encoding.md R76). -/
  | injWord (u : Bool) (data : Word)
  /-- `INJ.COMMIT` (41_recoverer.md R145). -/
  | injCommit
  /-- `PEEK i` (42_readback.md R170): `idx` is the 10-bit state index (30_encoding.md R77). -/
  | peek (idx : BitVec 10)
  deriving DecidableEq, Repr

end Sys2Proof
end

