-- ==== Sys2Proof/Decode.lean ====
section
/-! DEFINITION. Decoding a command word and its data operand (30_encoding.md R74 to R81), total on all 2^32 command
words and refusing by name; then the encoder, written from the same tables (R74, R75, R82). Decoding has no state
input (R81). -/

namespace Sys2Proof

/-- Why a command word is ILLEGAL (30_encoding.md R78, 60_exceptions.md R202). All five raise the one error ILLEGAL;
the names are the model's (log 15). -/
inductive Illegal where
  /-- OP is 0x0 or 0x9 to 0xF (R75). -/
  | reservedOpcode
  /-- RES0, bits 15:5, is not 0 (R74). -/
  | res0NotZero
  /-- RES1, bits 31:26, is not 0 (R74). -/
  | res1NotZero
  /-- U, bit 4, is 1 and OP is not INJ_WORD (R76). -/
  | uNotApplicable
  /-- IDX, bits 25:16, is not 0 and OP is not PEEK (R77). -/
  | idxNotApplicable
  deriving DecidableEq, Repr

/-- OP, bits 3:0 (R74). -/
def opField (w : Word) : BitVec 4 := w.extractLsb' 0 4

/-- U, bit 4 (R74). -/
def uField (w : Word) : Bool := w.getLsbD 4

/-- RES0, bits 15:5 (R74). -/
def res0Field (w : Word) : BitVec 11 := w.extractLsb' 5 11

/-- IDX, bits 25:16 (R74). -/
def idxField (w : Word) : BitVec 10 := w.extractLsb' 16 10

/-- RES1, bits 31:26 (R74). -/
def res1Field (w : Word) : BitVec 6 := w.extractLsb' 26 6

/-- The opcode map of R75 on a word whose other fields have been checked. -/
def decodeOpcode (w data : Word) : Except Illegal Instr :=
  match (opField w).toNat with
  | 1 => .ok (.seed data)
  | 2 => .ok .next
  | 3 => .ok (.temper data)
  | 4 => .ok (.untemper data)
  | 5 => .ok .injStart
  | 6 => .ok (.injWord (uField w) data)
  | 7 => .ok .injCommit
  | 8 => .ok (.peek (idxField w))
  | _ => .error .reservedOpcode

/-- The decoder: read OP, check the reserved and inapplicable fields (R78, R81), select the command (R75). The data
operand is never checked (R79). -/
def decode (w data : Word) : Except Illegal Instr :=
  if res0Field w ≠ 0#11 then .error .res0NotZero
  else if res1Field w ≠ 0#6 then .error .res1NotZero
  else if uField w = true ∧ opField w ≠ 6#4 then .error .uNotApplicable
  else if idxField w ≠ 0#10 ∧ opField w ≠ 8#4 then .error .idxNotApplicable
  else decodeOpcode w data

/-- The command word of a command (R75, R82). -/
def encodeWord : Instr → Word
  | .seed _ => 0x00000001
  | .next => 0x00000002
  | .temper _ => 0x00000003
  | .untemper _ => 0x00000004
  | .injStart => 0x00000005
  | .injWord false _ => 0x00000006
  | .injWord true _ => 0x00000016
  | .injCommit => 0x00000007
  | .peek i => (i.setWidth 32 <<< 16) ||| 0x00000008

/-- The data operand of a command; 0 where the command has none (R82). -/
def encodeData : Instr → Word
  | .seed v => v
  | .next => 0
  | .temper v => v
  | .untemper v => v
  | .injStart => 0
  | .injWord _ v => v
  | .injCommit => 0
  | .peek _ => 0

/-- The pair `(cmd_word, cmd_data)` of a command (R82). -/
def encode (i : Instr) : Word × Word := (encodeWord i, encodeData i)

/-- A command as one number, bit 0 the least significant bit of the command word and the data operand in bits 63:32
(log 16): its command word. `nbits` bits are given and every bit above them is 0. -/
def tableCommandWord (nbits w : Nat) : Word := BitVec.ofNat 32 (w % 2 ^ nbits)

/-- The same number's data operand. -/
def tableDataWord (nbits w : Nat) : Word := BitVec.ofNat 32 ((w % 2 ^ nbits) >>> 32)

/-- What the decoder reads from an instruction whose bits are `w`, numbered as the opcode table numbers them. -/
def decodeTableWord (nbits w : Nat) : Option Instr :=
  match decode (tableCommandWord nbits w) (tableDataWord nbits w) with
  | .ok i => some i
  | .error _ => none

end Sys2Proof
end

