-- ==== Sys2Proof/Config.lean ====
section
/-! DEFINITION. What is fixed for the machine: the size of the state array (00_scope.md R6) and the parameters
the spec leaves OPEN (00_scope.md R7), the latter as opaque constants, so that no proof can see a value of one.
The algorithm's other constants stand with the algorithm in Machine/Algorithm.lean. -/

namespace Sys2Proof

/-- The state array `MT`: exactly n = 624 words (00_scope.md R6), a length that cannot change (10_state.md R20). -/
abbrev StateArray := Vector Word 624

/-- The OPEN latencies of 00_scope.md R7, in cycles. `LAT(cmd)` is a positive integer, so each command's field is
`LAT(cmd) - 1`. `nextTwist` is NEXT when it twists and `next` NEXT when it does not; `illegal` is a command word that
is no command. `reset` is `LAT_RESET`, a non-negative integer. -/
structure Latencies where
  seed      : Nat
  next      : Nat
  nextTwist : Nat
  temper    : Nat
  untemper  : Nat
  injStart  : Nat
  injWord   : Nat
  injCommit : Nat
  peek      : Nat
  illegal   : Nat
  reset     : Nat
  deriving DecidableEq, Repr, Inhabited

/-- `N_ENGINES` (00_scope.md R7; 93_implementation_defined.md U5): OPEN, at least 1, an argument of a system. -/
abbrev EngineCount := { nEngines : Nat // 1 ≤ nEngines }

/-- `BUS_BYTE_ORDER` (00_scope.md R7; 93_implementation_defined.md U6): OPEN, an argument of the bus adapter. Entry k
says which byte of a word, byte 0 the least significant, stands at offset k on the bus; any order of the four (log 19).
-/
structure BusByteOrder where
  lanes      : Vector (Fin 4) 4
  eachOnce   : lanes.toList.Nodup
  deriving DecidableEq, Repr

namespace Config

/-- `LAT(cmd)` and `LAT_RESET` (00_scope.md R7; 93_implementation_defined.md U4): OPEN, no rule depends on them. -/
opaque latencies : Latencies

/-- `RESET_MT` (00_scope.md R7; 93_implementation_defined.md U2): word i of the state array after the reset at the
given edge, one draw of 624 words per reset. -/
opaque resetWord : Nat → Fin 624 → Word

/-- The whole array after the reset at the given edge: 624 words, each of them open. -/
@[irreducible] def resetMt (edge : Nat) : StateArray := Vector.ofFn (resetWord edge)

/-- What the status port shows at the given edge while STATUS is not defined (42_readback.md R171; U3). -/
opaque statusDraw : Nat → Word

/-- What `rsp_data` shows at the given edge while `rsp_valid` is 0; the spec does not say (log 5). -/
opaque rspDataDraw : Nat → Word

/-- What `rsp_err` shows at the given edge while `rsp_valid` is 0; the spec does not say (log 5). -/
opaque rspErrDraw : Nat → BitVec 4

end Config

end Sys2Proof
end

