-- ==== Sys2Proof/Machine/State.lean ====
section
/-! DEFINITION. The state of one engine: the state array and the six sequencer registers (10_state.md), the response
registers and the handshake (30_encoding.md R70 to R73), and the model's own fields (INVENTORY.md, State). Plain data.
One step of the machine is one rising edge of `clk`. -/

namespace Sys2Proof.Machine

/-- The input pins as sampled at one rising edge of `clk` (30_encoding.md R70). -/
structure PortIn where
  rst      : Bool
  cmdValid : Bool
  cmdWord  : Word
  cmdData  : Word
  rspReady : Bool
  deriving DecidableEq, Repr

/-- A response: `rsp_data` and `rsp_err` (30_encoding.md R73). -/
structure Response where
  data : Word
  err  : BitVec 4
  deriving DecidableEq, Repr

/-- Where the handshake stands (30_encoding.md R72, R73; 70_reset_and_hazards.md R240 to R242). -/
inductive Phase where
  /-- The last edge had `rst` = 1. -/
  | inReset
  /-- `rst` has been released; `cmd_ready` rises `left + 1` edges from here (R242). -/
  | waking (left : Nat)
  /-- `cmd_ready` is 1 (while `rst` = 0). -/
  | ready
  /-- A command has been accepted; `rsp_valid` rises `left + 1` edges from here (R73). -/
  | executing (left : Nat)
  /-- `rsp_valid` is 1 (while `rst` = 0) until the response is taken (R73). -/
  | responding
  deriving DecidableEq, Repr

/-- Why the machine stops. -/
inductive Fault where
  /-- Raised by INJ_WORD (`execInjWord`) when INJ = 1 and INJCNT is 625 to 1023: the word would go to a state index
  that does not exist (20_memory.md R53, R57). No run reaches such a state (10_state.md R26;
  93_implementation_defined.md U12, `refuse`). Safe: the model stops where the spec gives no behaviour (log 13). -/
  | stateIndexAbsent
  deriving DecidableEq, Repr

/-- Why an instruction has no meaning in the model. -/
inductive Refusal where
  /-- Raised by an arm of `exec` whose instruction has no meaning yet, under the instruction's mnemonic; no arm is
  left so. Safe. -/
  | notModelled (mnemonic : String)
  deriving DecidableEq, Repr

/-- The state of one engine. The first seven fields are the architectural registers of 10_state.md. -/
structure State where
  /-- `MT` (R20). -/
  mt      : StateArray
  /-- `INDEX`, the cursor (R22). -/
  index   : BitVec 10
  /-- `VALID` (R24). -/
  valid   : Bool
  /-- `INJ` (R25). -/
  inj     : Bool
  /-- `INJCNT` (R26). -/
  injcnt  : BitVec 10
  /-- `ERR` (R27). -/
  err     : Bool
  /-- `CAUSE` (R28). -/
  cause   : BitVec 4
  /-- `rsp_data`, held until the response is taken (30_encoding.md R73). -/
  rspData : Word
  /-- `rsp_err`, held until the response is taken (30_encoding.md R73). -/
  rspErr  : BitVec 4
  /-- Where the handshake stands. -/
  phase   : Phase
  /-- The responses the host has taken since the last reset, oldest first (70_reset_and_hazards.md R251, log 11). -/
  taken   : List Response
  /-- The pin samples still to come, one per edge; an empty list is an idle host (log 9). -/
  inputs  : List PortIn
  /-- The OPEN latencies (00_scope.md R7); nothing writes them (log 3). -/
  lat     : Latencies
  /-- Edges so far: the counter that makes every draw fresh (log 12). -/
  edges   : Nat
  deriving DecidableEq, Repr

/-- The machine right after reset (70_reset_and_hazards.md R240): `INDEX` 624, the other registers 0, `MT` the draw
`RESET_MT`; the last edge had `rst` = 1, so `cmd_ready` is 0 until `LAT_RESET` has passed (R242). -/
def State.reset : State where
  mt      := Config.resetMt 0
  index   := 624
  valid   := false
  inj     := false
  injcnt  := 0
  err     := false
  cause   := 0
  rspData := 0
  rspErr  := 0
  phase   := .inReset
  taken   := []
  inputs  := []
  lat     := Config.latencies
  edges   := 0

end Sys2Proof.Machine
end

