-- ==== Sys2Proof/Machine/Flags.lean ====
section
/-! DEFINITION. The error codes (60_exceptions.md R201) and the STATUS register (10_state.md R32), the engine's only
status bits; there are no condition codes (10_state.md R30). -/

namespace Sys2Proof.Machine

/-- The errors a command can end in (60_exceptions.md R201). -/
inductive ErrorCode where
  /-- R202: the command word fails the legality test. -/
  | illegal
  /-- R203: `VALID` = 0. -/
  | notReady
  /-- R204: no injection is open. -/
  | sequence
  /-- R205: the injected length is not exactly 624. -/
  | length
  /-- R206: the state index is 624 or above. -/
  | range
  deriving DecidableEq, Repr

/-- The code of an error on `rsp_err` and in STATUS.CAUSE (R201). -/
def errorCode : ErrorCode → BitVec 4
  | .illegal => 1
  | .notReady => 2
  | .sequence => 3
  | .length => 4
  | .range => 5

/-- Code 0, OK: the command succeeded (R201). -/
def okCode : BitVec 4 := 0

/-- A flag as a 32-bit number. -/
def flagWord (b : Bool) : Word := if b then 1 else 0

/-- STATUS as a view of the sequencer registers (10_state.md R32). -/
def statusWord (s : State) : Word :=
  (s.injcnt.setWidth 32 <<< 18) ||| (s.index.setWidth 32 <<< 8) ||| (s.cause.setWidth 32 <<< 4)
    ||| (flagWord s.err <<< 2) ||| (flagWord s.inj <<< 1) ||| flagWord s.valid

end Sys2Proof.Machine
end

