-- ==== Sys2Proof/Machine/Algorithm.lean ====
section
/-! DEFINITION. The MT19937 functions bit for bit: the constants (00_scope.md R6), tempering `T` (40_generator.md
R100), untempering `UT` (41_recoverer.md R140), `Expand` (R101) and `Twist` (R102), each in the order its pseudocode
gives, over the loop primitives of 00_scope.md R10. -/

namespace Sys2Proof.Machine

/-- `lower_mask`, the low r = 31 bits (R6). -/
def lowerMask : Word := 0x7FFFFFFF
/-- `upper_mask`, the complement of `lower_mask` within 32 bits (R6). -/
def upperMask : Word := 0x80000000
/-- `a`, the twist XOR constant (R6). -/
def twistA : Word := 0x9908B0DF
/-- `f`, the seed-expansion multiplier (R6). -/
def seedF : Word := 1812433253
/-- `d`, tempering mask 1 (R6). -/
def maskD : Word := 0xFFFFFFFF
/-- `b`, tempering mask 2 (R6). -/
def maskB : Word := 0x9D2C5680
/-- `c`, tempering mask 3 (R6). -/
def maskC : Word := 0xEFC60000

/-- `for i in lo .. lo+count-1: body`, in increasing order, each pass over what the one before it left (R10). -/
def forUp {α : Type} (body : Nat → α → α) (lo : Nat) : Nat → α → α
  | 0, a => a
  | count + 1, a => body (lo + count) (forUp body lo count a)

/-- `repeat k times: body` (R10). -/
def repeatTimes {α : Type} (body : α → α) : Nat → α → α
  | 0, a => a
  | k + 1, a => repeatTimes body k (body a)

/-- A state index: `k mod 624` (R102 computes its indices so; for k below 624 it is k). -/
def stateIndex (k : Nat) : Fin 624 := ⟨k % 624, Nat.mod_lt k (by decide)⟩

/-- `MT[i]`, a read of state word i (R10). -/
def readWord (mt : StateArray) (i : Fin 624) : Word := mt[i.val]

/-- `MT[i] <- v`, a write of state word i (R10). -/
def writeWord (mt : StateArray) (i : Fin 624) (v : Word) : StateArray := mt.set i.val v

/-- Tempering step 1: shift u = 11, mask d (R100). -/
def stepU (y : Word) : Word := y ^^^ ((y >>> 11) &&& maskD)
/-- Tempering step 2: shift s = 7, mask b (R100). -/
def stepS (y : Word) : Word := y ^^^ ((y <<< 7) &&& maskB)
/-- Tempering step 3: shift t = 15, mask c (R100). -/
def stepT (y : Word) : Word := y ^^^ ((y <<< 15) &&& maskC)
/-- Tempering step 4: shift l = 18 (R100). -/
def stepL (y : Word) : Word := y ^^^ (y >>> 18)

/-- `T(y)`, tempering: the four steps in this order (R100). -/
def temper (y : Word) : Word := stepL (stepT (stepS (stepU y)))

/-- Untempering with given repeat counts for the s-step and the u-step (R140 with its counts as arguments). -/
def untemperWith (sCount uCount : Nat) (y : Word) : Word :=
  repeatTimes stepU uCount (repeatTimes stepS sCount (stepT (stepL y)))

/-- `UT(y)`, untempering: the l-step once, the t-step once, the s-step 7 times, the u-step 3 times (R140). -/
def untemper (y : Word) : Word := untemperWith 7 3 y

/-- One pass of the seed-expansion loop: `MT[i] <- f * (MT[i-1] ^ (MT[i-1] >> 30)) + i` (R101). -/
def expandStep (i : Nat) (mt : StateArray) : StateArray :=
  let prev := readWord mt (stateIndex (i - 1))
  writeWord mt (stateIndex i) (seedF * (prev ^^^ (prev >>> 30)) + BitVec.ofNat 32 i)

/-- `Expand(seed)`: `MT[0] <- seed`, then i from 1 to 623 (R101, R11). -/
def expand (seed : Word) (mt : StateArray) : StateArray :=
  forUp expandStep 1 623 (writeWord mt (stateIndex 0) seed)

/-- The word a twist pass writes, from `MT[i]`, `MT[(i+1) mod 624]` and `MT[(i+397) mod 624]` (R102). -/
def twistWord (cur succ mid : Word) : Word :=
  let x := (cur &&& upperMask) + (succ &&& lowerMask)
  let xA := x >>> 1
  mid ^^^ (if x.getLsbD 0 then xA ^^^ twistA else xA)

/-- One pass of the twist loop (R102). -/
def twistStep (i : Nat) (mt : StateArray) : StateArray :=
  writeWord mt (stateIndex i)
    (twistWord (readWord mt (stateIndex i)) (readWord mt (stateIndex (i + 1))) (readWord mt (stateIndex (i + 397))))

/-- `Twist()`: i from 0 to 623 in place, each pass seeing the writes of the ones before it (R102, C3). -/
def twist (mt : StateArray) : StateArray := forUp twistStep 0 624 mt

end Sys2Proof.Machine
end

