-- ==== Sys2Proof/Machine/Operands.lean ====
section
/-! DEFINITION. The operand forms: the data operand with the U field (30_encoding.md R76, R79) and the PEEK index
(R77). -/

namespace Sys2Proof.Machine

/-- The word INJ_WORD stores: `UT(data)` when U = 1, `data` as given when U = 0 (R76). -/
def injectedWord (u : Bool) (data : Word) : Word := if u then untemper data else data

/-- The PEEK index `zext_32(IDX)`: unsigned, no scaling (R77). -/
def peekIndex (idx : BitVec 10) : Nat := (idx.setWidth 32).toNat

end Sys2Proof.Machine
end

