-- ==== Sys2Proof/Machine/Ops.lean ====
section
/-! DEFINITION. How a command ends: `respond` (30_encoding.md R73) and `raise` (60_exceptions.md R208), the one shared
operation for every error. An error saves no state, changes no mode and transfers control nowhere, and there is no
return from it (R211): the command after it starts from the state `raise` leaves. -/

namespace Sys2Proof.Machine

/-- `respond(v)`: the command succeeds with data v and error code 0; ERR and CAUSE are not touched (R209). -/
def respond (v : Word) (s : State) : Host.Outcome State Fault Refusal :=
  .next { s with rspData := v, rspErr := okCode }

/-- `if E = LENGTH: INJ <- 0; INJCNT <- 0` (R208). -/
def closeOnLength (e : ErrorCode) (s : State) : State :=
  match e with
  | .length => { s with inj := false, injcnt := 0 }
  | .illegal => s
  | .notReady => s
  | .sequence => s
  | .range => s

/-- The state after `raise E()`: LENGTH closes the injection; `ERR <- 1; CAUSE <- code(E)`; the response is data 0
with E's code (R208, R209). -/
def raised (e : ErrorCode) (s : State) : State :=
  { closeOnLength e s with err := true, cause := errorCode e, rspData := 0, rspErr := errorCode e }

/-- `raise E()`: the command ends with error E; the machine goes on (R200). -/
def raiseError (e : ErrorCode) (s : State) : Host.Outcome State Fault Refusal := .next (raised e s)

end Sys2Proof.Machine
end

