-- ==== Sys2Proof/Machine/Generator.lean ====
section
/-! DEFINITION. The generator's commands SEED, NEXT and TEMPER (40_generator.md R105 to R107). -/

namespace Sys2Proof.Machine

/-- SEED (R105): accepted in every state; an open injection is abandoned. -/
def execSeed (data : Word) (s : State) : Host.Outcome State Fault Refusal :=
  respond 0 { s with mt := expand data s.mt, index := 624, valid := true, inj := false, injcnt := 0 }

/-- `y <- MT[INDEX]; INDEX <- INDEX + 1; respond(T(y))` (R106), with the array and the cursor the twist test left. -/
def extractAt (mt : StateArray) (i : Fin 624) (s : State) : Host.Outcome State Fault Refusal :=
  respond (temper (readWord mt i)) { s with mt := mt, index := BitVec.ofNat 10 i.val + 1 }

/-- NEXT (R106): NOT_READY when `VALID` = 0; when `INDEX` >= 624 (R23) twist first and start from index 0. -/
def execNext (s : State) : Host.Outcome State Fault Refusal :=
  if s.valid = false then raiseError .notReady s
  else if h : s.index.toNat < 624 then extractAt s.mt ⟨s.index.toNat, h⟩ s
  else extractAt (twist s.mt) (stateIndex 0) s

/-- TEMPER (R107): pure, accepted in every state. -/
def execTemper (data : Word) (s : State) : Host.Outcome State Fault Refusal := respond (temper data) s

end Sys2Proof.Machine
end

