-- ==== Sys2Proof/Machine/Readback.lean ====
section
/-! DEFINITION. The readback command PEEK (42_readback.md R170). -/

namespace Sys2Proof.Machine

/-- PEEK (R170): RANGE before NOT_READY (60_exceptions.md R207); no twist and no change of `INDEX`. -/
def execPeek (idx : BitVec 10) (s : State) : Host.Outcome State Fault Refusal :=
  if h : peekIndex idx < 624 then
    if s.valid = false then raiseError .notReady s
    else respond (readWord s.mt ⟨peekIndex idx, h⟩) s
  else raiseError .range s

end Sys2Proof.Machine
end

