-- ==== Sys2Proof/Machine/Recoverer.lean ====
section
/-! DEFINITION. The recoverer and the injection: UNTEMPER, INJ_START, INJ_WORD and INJ_COMMIT (41_recoverer.md R142
to R145). -/

namespace Sys2Proof.Machine

/-- UNTEMPER (R142): pure, accepted in every state. -/
def execUntemper (data : Word) (s : State) : Host.Outcome State Fault Refusal := respond (untemper data) s

/-- INJ_START (R143): accepted in every state; an open injection starts over. -/
def execInjStart (s : State) : Host.Outcome State Fault Refusal :=
  respond 0 { s with inj := true, valid := false, injcnt := 0 }

/-- INJ_WORD (R144): SEQUENCE before LENGTH (60_exceptions.md R207); then the word goes to `MT[INJCNT]`. With INJCNT
above 624, which no run reaches (10_state.md R26), there is no such state word and the machine stops (log 13). -/
def execInjWord (u : Bool) (data : Word) (s : State) : Host.Outcome State Fault Refusal :=
  if s.inj = false then raiseError .sequence s
  else if s.injcnt = 624#10 then raiseError .length s
  else if h : s.injcnt.toNat < 624 then
    respond (injectedWord u data)
      { s with mt := writeWord s.mt ⟨s.injcnt.toNat, h⟩ (injectedWord u data), injcnt := s.injcnt + 1 }
  else .fault .stateIndexAbsent

/-- INJ_COMMIT (R145): SEQUENCE before LENGTH; success only with exactly 624 words. -/
def execInjCommit (s : State) : Host.Outcome State Fault Refusal :=
  if s.inj = false then raiseError .sequence s
  else if s.injcnt ≠ 624#10 then raiseError .length s
  else respond 0 { s with inj := false, injcnt := 0, valid := true, index := 624 }

end Sys2Proof.Machine
end

