-- ==== Sys2Proof/Machine/Dispatch.lean ====
section
/-! DEFINITION. The one match that gives each command its meaning. -/

namespace Sys2Proof.Machine

def exec (i : Instr) (s : State) : Host.Outcome State Fault Refusal :=
  match i with
  | .seed data => Sys2Proof.Machine.execSeed data s
  | .next => Sys2Proof.Machine.execNext s
  | .temper data => Sys2Proof.Machine.execTemper data s
  | .untemper data => Sys2Proof.Machine.execUntemper data s
  | .injStart => Sys2Proof.Machine.execInjStart s
  | .injWord u data => Sys2Proof.Machine.execInjWord u data s
  | .injCommit => Sys2Proof.Machine.execInjCommit s
  | .peek idx => Sys2Proof.Machine.execPeek idx s

end Sys2Proof.Machine
end

