-- ==== Sys2Proof/Machine/Transact.lean ====
section
/-! DEFINITION. The transaction level (30_encoding.md R73): one command as the function
`step(state, cmd_word, cmd_data) -> (state', rsp_data, rsp_err)`, with the response in the response registers; and a
sequence of commands with the list of its responses (70_reset_and_hazards.md R251). -/

namespace Sys2Proof.Machine

/-- One command: decode it; a word that is no command raises ILLEGAL in every state (60_exceptions.md R202), before
anything else is checked (R207). -/
def transact (w data : Word) (s : State) : Host.Outcome State Fault Refusal :=
  match decode w data with
  | .ok i => exec i s
  | .error _ => raiseError .illegal s

/-- The response in the response registers. -/
def State.response (s : State) : Response := { data := s.rspData, err := s.rspErr }

/-- A sequence of `(cmd_word, cmd_data)` pairs in acceptance order: the state after it and the responses, in order;
none where a command stops the machine. -/
def runCommands : List (Word × Word) → State → Option (State × List Response)
  | [], s => some (s, [])
  | c :: cs, s =>
    match transact c.1 c.2 s with
    | .next t =>
      match runCommands cs t with
      | some (u, rs) => some (u, t.response :: rs)
      | none => none
    | .fault _ => none
    | .refused _ => none

/-- `LAT(cmd) - 1` of a command in a state (00_scope.md R7): NEXT has a latency of its own when it twists. -/
def commandLatency (i : Instr) (s : State) : Nat :=
  match i with
  | .seed _ => s.lat.seed
  | .next => if s.valid = true ∧ 624 ≤ s.index.toNat then s.lat.nextTwist else s.lat.next
  | .temper _ => s.lat.temper
  | .untemper _ => s.lat.untemper
  | .injStart => s.lat.injStart
  | .injWord _ _ => s.lat.injWord
  | .injCommit => s.lat.injCommit
  | .peek _ => s.lat.peek

/-- `LAT - 1` of a command word: that of its command, or that of an ILLEGAL word. -/
def wordLatency (w data : Word) (s : State) : Nat :=
  match decode w data with
  | .ok i => commandLatency i s
  | .error _ => s.lat.illegal

end Sys2Proof.Machine
end

