-- ==== Sys2Proof/Machine/Ports.lean ====
section
/-! DEFINITION. The ports (30_encoding.md R70 to R73), reset (70_reset_and_hazards.md R240 to R242) and the handshake
(R244), one rising edge of `clk` at a time. An output that "rises k cycles after" an edge is driven at the k-th edge
after it and first sampled at the edge after that (log 8). -/

namespace Sys2Proof.Machine

/-- The pins of a host that offers nothing and takes nothing. -/
def idlePins : PortIn := { rst := false, cmdValid := false, cmdWord := 0, cmdData := 0, rspReady := false }

/-- The pins sampled at the next edge (log 9). -/
def sampledPins (s : State) : PortIn := s.inputs.headD idlePins

/-- The next edge's sample has been read. -/
def pastSample (s : State) : State := { s with inputs := s.inputs.tail, edges := s.edges + 1 }

/-- `cmd_ready` rises in k cycles (R242). -/
def wakeIn : Nat → Phase
  | 0 => .ready
  | k + 1 => .waking k

/-- `rsp_valid` rises in k cycles (R73). -/
def respondIn : Nat → Phase
  | 0 => .responding
  | k + 1 => .executing k

/-- An edge with `rst` = 1 (R240): the registers take their reset values, `MT` becomes a draw, an outstanding command
is abandoned without a response (R241). -/
def resetEdge (s : State) : State :=
  { State.reset with mt := Config.resetMt s.edges, inputs := s.inputs, lat := s.lat, edges := s.edges }

/-- An edge that accepts a command (R71): its whole effect and its response registers (log 7); `rsp_valid` rises
`LAT(cmd)` cycles later (R73). -/
def acceptCommand (w data : Word) (s : State) : Host.Outcome State Fault Refusal :=
  match transact w data s with
  | .next t => .next { t with phase := respondIn (wordLatency w data s + 1) }
  | .fault f => .fault f
  | .refused r => .refused r

/-- The edge at which the response is taken (R72): the host has it, and `cmd_ready` rises again. -/
def takeResponse (s : State) : State := { s with phase := .ready, taken := s.taken ++ [s.response] }

/-- One rising edge of `clk` with the pins p. Between commands, and while the host does not take a response, the
engine holds its state (60_exceptions.md R217, 93_implementation_defined.md U14). -/
def clockEdge (p : PortIn) (s : State) : Host.Outcome State Fault Refusal :=
  if p.rst = true then .next (resetEdge s)
  else
    match s.phase with
    | .inReset => .next { s with phase := wakeIn s.lat.reset }
    | .waking left => .next { s with phase := wakeIn left }
    | .ready => if p.cmdValid = true then acceptCommand p.cmdWord p.cmdData s else .next s
    | .executing left => .next { s with phase := respondIn left }
    | .responding => if p.rspReady = true then .next (takeResponse s) else .next s

/-- A command is outstanding: accepted, and its response not yet taken (R72). -/
def State.outstanding (s : State) : Bool :=
  match s.phase with
  | .inReset => false
  | .waking _ => false
  | .ready => false
  | .executing _ => true
  | .responding => true

/-- STATUS is defined: no command is outstanding and reset has ended (42_readback.md R171, log 4). -/
def State.statusDefined (s : State) : Bool :=
  match s.phase with
  | .inReset => false
  | .waking _ => true
  | .ready => true
  | .executing _ => false
  | .responding => false

/-- The output pins (30_encoding.md R70). -/
structure PortOut where
  cmdReady : Bool
  rspValid : Bool
  rspData  : Word
  rspErr   : BitVec 4
  status   : Word
  deriving DecidableEq, Repr

/-- `cmd_ready` with `rst` as given (R72, R242). -/
def cmdReady (rst : Bool) (s : State) : Bool := !rst && decide (s.phase = .ready)

/-- `rsp_valid` with `rst` as given (R73, R241). -/
def rspValid (rst : Bool) (s : State) : Bool := !rst && decide (s.phase = .responding)

/-- The status port (42_readback.md R171): STATUS while it is defined, a fresh draw otherwise. -/
def statusPort (s : State) : Word := if s.statusDefined = true then statusWord s else Config.statusDraw s.edges

/-- The output pins as driven in a state, with `rst` as given. The spec says nothing of `rsp_data` and `rsp_err` while
`rsp_valid` is 0: they are draws (log 5). -/
def portOut (rst : Bool) (s : State) : PortOut where
  cmdReady := cmdReady rst s
  rspValid := rspValid rst s
  rspData  := if rspValid rst s = true then s.rspData else Config.rspDataDraw s.edges
  rspErr   := if rspValid rst s = true then s.rspErr else Config.rspErrDraw s.edges
  status   := statusPort s

/-- The pins of a host that offers the command `(w, data)`. -/
def offerPins (w data : Word) : PortIn :=
  { rst := false, cmdValid := true, cmdWord := w, cmdData := data, rspReady := false }

end Sys2Proof.Machine
end

