-- ==== Sys2Proof/Machine/Step.lean ====
section
/-! DEFINITION. One step of the machine: one rising edge of `clk` (30_encoding.md R70) with the next sample of the
input pins. -/

namespace Sys2Proof.Machine

/-- One rising edge of `clk`. -/
def step (s : State) : Host.Outcome State Fault Refusal := clockEdge (sampledPins s) (pastSample s)

/-- s with the command offered at the very next edge and accepted there: the next pin sample offers it, and the engine
is ready (log 10). The sample stands in place of the one that was next. -/
def State.withFetchWord (s : State) (nbits w : Nat) : State :=
  { s with
    phase := .ready
    inputs := offerPins (tableCommandWord nbits w) (tableDataWord nbits w) :: s.inputs.tail }

end Sys2Proof.Machine
end

