-- ==== Sys2Proof/WellFormed.lean ====
section
/-! DEFINITION. Well-formedness of what an assembler is given (30_encoding.md R82, R83). A term of `Instr` is well
formed by its field widths alone; the spec's own well-formedness checks are those an assembler makes on a source line,
whose operands are plain numbers: each must fit its field, and LOAD and CLONE take exactly 624 operands. -/

namespace Sys2Proof

/-- One assembler source line: the commands of R82 with the operand as written, and the pseudo-commands of R83. -/
inductive AsmLine where
  | seed (v : Nat)
  | next
  | temper (v : Nat)
  | untemper (v : Nat)
  | injStart
  | injWord (v : Nat)
  | injWordU (v : Nat)
  | injCommit
  | peek (i : Nat)
  /-- `NEW v` -/
  | newGen (v : Nat)
  /-- `LOAD w0, ..., w623` -/
  | load (ws : List Nat)
  /-- `CLONE y0, ..., y623` -/
  | clone (ys : List Nat)
  deriving DecidableEq, Repr

/-- A data operand fits 32 bits (R82). -/
def fitsData (v : Nat) : Bool := decide (v < 2 ^ 32)

/-- A PEEK index fits 10 bits (R82). -/
def fitsIndex (i : Nat) : Bool := decide (i < 2 ^ 10)

/-- Exactly 624 operands, each of which fits (R83). -/
def fitsArray (ws : List Nat) : Bool := decide (ws.length = 624) && ws.all fitsData

/-- The assembler accepts the line: an operand that does not fit its field is refused (R82), and so is a LOAD or a
CLONE with any count of operands other than 624 (R83). -/
def AsmLine.wellFormed : AsmLine → Bool
  | .seed v => fitsData v
  | .next => true
  | .temper v => fitsData v
  | .untemper v => fitsData v
  | .injStart => true
  | .injWord v => fitsData v
  | .injWordU v => fitsData v
  | .injCommit => true
  | .peek i => fitsIndex i
  | .newGen v => fitsData v
  | .load ws => fitsArray ws
  | .clone ys => fitsArray ys

end Sys2Proof
end

