-- ==== Sys2Proof/Machine/Assembler.lean ====
section
/-! DEFINITION. The assembler (30_encoding.md R82, R83): a source line to its commands, a program to its
`(cmd_word, cmd_data)` pairs, and the text of a line to the line. The conventions of the text that R82 does not state
are in log 18. -/

namespace Sys2Proof.Machine

/-- The data operand written as the number v. -/
def asmData (v : Nat) : Word := BitVec.ofNat 32 v

/-- The commands a line stands for: one for each line of R82, the fixed expansion for each pseudo-command of R83. -/
def asmCommands : AsmLine → List Instr
  | .seed v => [.seed (asmData v)]
  | .next => [.next]
  | .temper v => [.temper (asmData v)]
  | .untemper v => [.untemper (asmData v)]
  | .injStart => [.injStart]
  | .injWord v => [.injWord false (asmData v)]
  | .injWordU v => [.injWord true (asmData v)]
  | .injCommit => [.injCommit]
  | .peek i => [.peek (BitVec.ofNat 10 i)]
  | .newGen v => [.seed (asmData v)]
  | .load ws => .injStart :: (ws.map fun w => .injWord false (asmData w)) ++ [.injCommit]
  | .clone ys => .injStart :: (ys.map fun y => .injWord true (asmData y)) ++ [.injCommit]

/-- A line's `(cmd_word, cmd_data)` pairs; a line with an operand that does not fit or a wrong count is refused. -/
def assembleLine (l : AsmLine) : Option (List (Word × Word)) :=
  if l.wellFormed = true then some ((asmCommands l).map encode) else none

/-- A program's pairs, in order; refused when any line is. -/
def assemble : List AsmLine → Option (List (Word × Word))
  | [] => some []
  | l :: ls =>
    match assembleLine l, assemble ls with
    | some a, some b => some (a ++ b)
    | _, _ => none

/-- A decimal digit's value. -/
def decDigit (c : Char) : Option Nat :=
  if '0'.toNat ≤ c.toNat ∧ c.toNat ≤ '9'.toNat then some (c.toNat - '0'.toNat) else none

/-- A hexadecimal digit's value, either case (log 18). -/
def hexDigit (c : Char) : Option Nat :=
  if 'a'.toNat ≤ c.toNat ∧ c.toNat ≤ 'f'.toNat then some (c.toNat - 'a'.toNat + 10)
  else if 'A'.toNat ≤ c.toNat ∧ c.toNat ≤ 'F'.toNat then some (c.toNat - 'A'.toNat + 10)
  else decDigit c

/-- Digits in a base, most significant first. -/
def readDigits (digit : Char → Option Nat) (base : Nat) : Nat → List Char → Option Nat
  | acc, [] => some acc
  | acc, c :: cs =>
    match digit c with
    | some d => readDigits digit base (acc * base + d) cs
    | none => none

/-- A decimal number or a `0x`-prefixed hexadecimal number (R82). -/
def readNumber : List Char → Option Nat
  | '0' :: 'x' :: c :: cs => readDigits hexDigit 16 0 (c :: cs)
  | c :: cs => readDigits decDigit 10 0 (c :: cs)
  | [] => none

/-- All of the tokens are numbers. -/
def readNumbers : List (List Char) → Option (List Nat)
  | [] => some []
  | t :: ts =>
    match readNumber t, readNumbers ts with
    | some v, some vs => some (v :: vs)
    | _, _ => none

/-- A comment starts with `;` and runs to the end of the line (R82). -/
def dropComment : List Char → List Char
  | [] => []
  | c :: cs => if c = ';' then [] else c :: dropComment cs

/-- A blank or a tab (log 18). -/
def isBlank (c : Char) : Bool := decide (c = ' ' ∨ c = '\t')

/-- Without the blanks at both ends. -/
def trimBlanks (cs : List Char) : List Char := ((cs.dropWhile isBlank).reverse.dropWhile isBlank).reverse

/-- The pieces between commas, each without the blanks around it; `cur` is the piece being read, reversed. -/
def commaPieces (cur : List Char) : List Char → List (List Char)
  | [] => [trimBlanks cur.reverse]
  | c :: cs => if c = ',' then trimBlanks cur.reverse :: commaPieces [] cs else commaPieces (c :: cur) cs

/-- The mnemonic and the operands of a line that is not blank: the mnemonic ends at the first blank, and commas
separate the operands of LOAD and CLONE (R83, log 18). -/
def tokens (line : List Char) : List (List Char) :=
  let body := trimBlanks line
  let rest := trimBlanks (body.dropWhile fun c => !isBlank c)
  (body.takeWhile fun c => !isBlank c) :: (if rest = [] then [] else commaPieces [] rest)

/-- A line from its tokens: a mnemonic and its operand or operands (R82, R83). -/
def lineOfTokens : List (List Char) → Option AsmLine
  | [] => none
  | m :: ops =>
    match readNumbers ops with
    | none => none
    | some vs =>
      if m = "LOAD".toList then some (.load vs)
      else if m = "CLONE".toList then some (.clone vs)
      else
        match vs with
        | [] =>
          if m = "NEXT".toList then some .next
          else if m = "INJ.START".toList then some .injStart
          else if m = "INJ.COMMIT".toList then some .injCommit
          else none
        | [v] =>
          if m = "SEED".toList then some (.seed v)
          else if m = "TEMPER".toList then some (.temper v)
          else if m = "UNTEMPER".toList then some (.untemper v)
          else if m = "INJ.WORD".toList then some (.injWord v)
          else if m = "INJ.WORD.U".toList then some (.injWordU v)
          else if m = "PEEK".toList then some (.peek v)
          else if m = "NEW".toList then some (.newGen v)
          else none
        | _ => none

/-- One line of text to its pairs: none of them for a line that is blank or only a comment, refused when it is no
line of R82 or R83. -/
def assembleText (line : List Char) : Option (List (Word × Word)) :=
  let body := trimBlanks (dropComment line)
  if body = [] then some []
  else
    match lineOfTokens (tokens body) with
    | some l => assembleLine l
    | none => none

end Sys2Proof.Machine
end

