-- ==== Sys2Proof/Machine/Bus.lean ====
section
/-! DEFINITION. The byte order of a bus adapter outside the block (00_scope.md R7, 20_memory.md R52), which maps the
32-bit ports onto a byte-addressed bus: the four bytes of a word on the bus and the word they make, with
`BUS_BYTE_ORDER` an argument. The engine moves only whole words, so nothing of it takes this argument. The spec gives
no more of an adapter than its byte order: where on the bus each port stands is outside the model (log 19). -/

namespace Sys2Proof.Machine

/-- The four bytes of a word, in the order of their bus offsets. -/
abbrev BusWord := Vector Byte 4

/-- Least significant byte first. -/
def littleOrder : BusByteOrder := ⟨#v[0, 1, 2, 3], by decide⟩

/-- Most significant byte first. -/
def bigOrder : BusByteOrder := ⟨#v[3, 2, 1, 0], by decide⟩

/-- Byte `lane` of a word, byte 0 the least significant. -/
def laneByte (lane : Fin 4) (w : Word) : Byte := w.extractLsb' (8 * lane.val) 8

/-- The word with one byte in its lane and zeros elsewhere. -/
def laneWord (lane : Fin 4) (b : Byte) : Word := b.setWidth 32 <<< (8 * lane.val)

/-- A word of a port as the bus carries it. -/
def toBus (busByteOrder : BusByteOrder) (w : Word) : BusWord :=
  #v[laneByte busByteOrder.lanes[0] w, laneByte busByteOrder.lanes[1] w, laneByte busByteOrder.lanes[2] w,
    laneByte busByteOrder.lanes[3] w]

/-- The word of a port that four bytes of the bus make. -/
def fromBus (busByteOrder : BusByteOrder) (bytes : BusWord) : Word :=
  laneWord busByteOrder.lanes[0] bytes[0] ||| laneWord busByteOrder.lanes[1] bytes[1] |||
    laneWord busByteOrder.lanes[2] bytes[2] ||| laneWord busByteOrder.lanes[3] bytes[3]

/-- The pins of a host that offers a command through an adapter: the bytes of `cmd_word` and of `cmd_data`. -/
def offerBytes (busByteOrder : BusByteOrder) (wordBytes dataBytes : BusWord) : PortIn :=
  offerPins (fromBus busByteOrder wordBytes) (fromBus busByteOrder dataBytes)

/-- `rsp_data` as a host reads it through an adapter. -/
def rspDataBytes (busByteOrder : BusByteOrder) (rst : Bool) (s : State) : BusWord :=
  toBus busByteOrder (portOut rst s).rspData

/-- The status port as a host reads it through an adapter. -/
def statusBytes (busByteOrder : BusByteOrder) (s : State) : BusWord := toBus busByteOrder (statusPort s)

end Sys2Proof.Machine
end

