-- ==== Sys2Proof/Machine/System.lean ====
section
/-! DEFINITION. A system of `N_ENGINES` engines (00_scope.md R7, 60_exceptions.md R215), at least one: each has its own
array, registers and ports. They share no state and send each other nothing. -/

namespace Sys2Proof.Machine

/-- A system is its engines, `nEngines` of them. -/
abbrev EngineSystem (nEngines : EngineCount) := Vector State nEngines.val

/-- One edge of engine k, as its own step says; an edge at which that engine stops is no edge (log 17). -/
def systemStep {nEngines : EngineCount} (k : Fin nEngines.val) (sys : EngineSystem nEngines) :
    Option (EngineSystem nEngines) :=
  match step sys[k.val] with
  | .next t => some (sys.set k.val t)
  | .fault _ => none
  | .refused _ => none

end Sys2Proof.Machine
end

