-- ==== Sys2Proof/Safety.lean ====
section
/-! DEFINITION. The terms the claims use: the architectural registers, the invariant of 10_state.md R29, runs at the
level of edges and at the level of transactions, the sequence form of the generator (40_generator.md R104), and which
state words a host may know. -/

namespace Sys2Proof.Machine

/-- The architectural registers alone (10_state.md R20 to R28). -/
structure Engine where
  mt     : StateArray
  index  : BitVec 10
  valid  : Bool
  inj    : Bool
  injcnt : BitVec 10
  err    : Bool
  cause  : BitVec 4
  deriving DecidableEq, Repr

/-- The architectural registers of a state. -/
def State.engine (s : State) : Engine where
  mt := s.mt
  index := s.index
  valid := s.valid
  inj := s.inj
  injcnt := s.injcnt
  err := s.err
  cause := s.cause

/-- The state an outcome goes on with. -/
def nextState : Host.Outcome State Fault Refusal → Option State
  | .next t => some t
  | .fault _ => none
  | .refused _ => none

/-- The invariants of 10_state.md R29 that speak of one state (items 1 to 4 and 6), with CAUSE and `rsp_err` among the
codes that exist (60_exceptions.md R201) and no data with an error (R200). -/
abbrev State.Inv (s : State) : Prop :=
  s.index.toNat ≤ 624 ∧ s.injcnt.toNat ≤ 624 ∧ (s.inj = true → s.valid = false) ∧ (s.inj = false → s.injcnt = 0) ∧
    (s.cause = 0 ↔ s.err = false) ∧ s.cause.toNat ≤ 5 ∧ s.rspErr.toNat ≤ 5 ∧ (s.rspErr ≠ 0 → s.rspData = 0)

/-- `legal(w)` of 30_encoding.md R78, on the number w. -/
abbrev legalWord (w : Word) : Prop :=
  (1 ≤ w.toNat % 16 ∧ w.toNat % 16 ≤ 8) ∧ w.toNat / 32 % 2048 = 0 ∧ w.toNat / 67108864 = 0 ∧
    (w.toNat / 16 % 2 = 0 ∨ w.toNat % 16 = 6) ∧ (w.toNat / 65536 % 1024 = 0 ∨ w.toNat % 16 = 8)

/-- The command uses the data operand (30_encoding.md R79). -/
def usesData : Instr → Bool
  | .seed _ => true
  | .next => false
  | .temper _ => true
  | .untemper _ => true
  | .injStart => false
  | .injWord _ _ => true
  | .injCommit => false
  | .peek _ => false

/-! Runs at the level of edges. -/

/-- The next k edges, stopping where the machine stops. -/
def runSteps : Nat → State → Host.Outcome State Fault Refusal
  | 0, s => .next s
  | k + 1, s =>
    match step s with
    | .next t => runSteps k t
    | .fault f => .fault f
    | .refused r => .refused r

/-- The next k edges have `rst` = 0. -/
def noReset (k : Nat) (s : State) : Prop := ∀ p ∈ s.inputs.take k, p.rst = false

/-- The edge ahead accepts a command (30_encoding.md R71). -/
def accepts (s : State) : Bool := (sampledPins s).cmdValid && cmdReady (sampledPins s).rst s

/-- The commands accepted at the next k edges, in order. -/
def acceptedCommands : Nat → State → List (Word × Word)
  | 0, _ => []
  | k + 1, s =>
    (if accepts s = true then [((sampledPins s).cmdWord, (sampledPins s).cmdData)] else []) ++
      (match step s with
       | .next t => acceptedCommands k t
       | .fault _ => []
       | .refused _ => [])

/-- The response of the outstanding command, if there is one. -/
def pendingResponses (s : State) : List Response := if s.outstanding = true then [s.response] else []

/-! The generator as one sequence of words. -/

/-- `A(x)` of 40_generator.md R104. -/
def mixBits (x : Word) : Word := (x >>> 1) ^^^ (if x.getLsbD 0 = true then 0x9908B0DF else 0)

/-- The recurrence of R104. -/
def isTwistSequence (X : Nat → Word) : Prop :=
  ∀ k, X (k + 624) = X (k + 397) ^^^ mixBits ((X k &&& 0x80000000) ||| (X (k + 1) &&& 0x7FFFFFFF))

/-- X begins with the words of a state array. -/
def beginsWith (X : Nat → Word) (mt : StateArray) : Prop := ∀ (i : Nat) (h : i < 624), X i = mt[i]

/-- X begins with the seed expansion of 40_generator.md R101. -/
def beginsWithSeed (X : Nat → Word) (seed : Word) : Prop :=
  X 0 = seed ∧
    ∀ i, i < 623 → X (i + 1) = 1812433253 * (X i ^^^ (X i >>> 30)) + BitVec.ofNat 32 (i + 1)

/-- k NEXT commands. -/
def nextCommands (k : Nat) : List (Word × Word) := List.replicate k (0x00000002, 0)

/-- The commands of `LOAD w0, ...` (30_encoding.md R83). -/
def loadCommands (ws : List Word) : List (Word × Word) :=
  (0x00000005, 0) :: (ws.map fun w => (0x00000006, w)) ++ [(0x00000007, 0)]

/-- The commands of `CLONE y0, ...` (30_encoding.md R83). -/
def cloneCommands (ys : List Word) : List (Word × Word) :=
  (0x00000005, 0) :: (ys.map fun y => (0x00000016, y)) ++ [(0x00000007, 0)]

/-- The command is a NEXT, or it changes neither `MT` nor a sequencer register but ERR and CAUSE: TEMPER, UNTEMPER,
PEEK or a word that is no command (10_state.md R33). -/
def keepsStream (c : Word × Word) : Bool :=
  match decode c.1 c.2 with
  | .ok (.seed _) => false
  | .ok .next => true
  | .ok (.temper _) => true
  | .ok (.untemper _) => true
  | .ok .injStart => false
  | .ok (.injWord _ _) => false
  | .ok .injCommit => false
  | .ok (.peek _) => true
  | .error _ => true

/-- The responses that answer NEXT commands. -/
def nextResponses : List (Word × Word) → List Response → List Response
  | c :: cs, r :: rs => if c.1 = 0x00000002 then r :: nextResponses cs rs else nextResponses cs rs
  | _, _ => []

/-! What a host may know of the state array. -/

/-- Two states that differ at most in state words no command may read: all of `MT` while `VALID` = 0, but for the words
written in the open injection (10_state.md R20, R29 item 5). -/
def agreeOnWritten (s t : State) : Prop :=
  { t with mt := s.mt } = s ∧ (s.valid = true → t.mt = s.mt) ∧
    (s.inj = true → ∀ (i : Nat) (h : i < 624), i < s.injcnt.toNat → t.mt[i] = s.mt[i])

end Sys2Proof.Machine
end

