-- ==== Sys2Proof/Certificates/Slice0/Obligations.lean ====
section
/-! DEFINITION. The statements for the provers. Each docstring names the rule of spec/ it formalises. A statement that
an instruction answers `.next` of a record update of s states its frame as well: every field the update does not name
is unchanged, every other state word among them. -/

open Sys2Proof Sys2Proof.Machine

/-! ## Encoding -/

/-- 30_encoding.md R84: the encoding examples. PEEK 1, PEEK 623, PEEK 700 (legal, raises RANGE when executed) and
INJ.WORD.U encode and decode as listed; the four listed words are ILLEGAL. The names of the reasons are the model's,
and so is the choice of RES0 for a word that R84 says fails two checks (log 15). -/
def Obligations.EncodingExamples : Prop :=
  (encode (.peek 1) = (0x00010008, 0) ∧ ∀ d, decode 0x00010008 d = .ok (.peek 1)) ∧
  (encode (.peek 623) = (0x026F0008, 0) ∧ ∀ d, decode 0x026F0008 d = .ok (.peek 623)) ∧
  (encode (.peek 700) = (0x02BC0008, 0) ∧ ∀ d, decode 0x02BC0008 d = .ok (.peek 700)) ∧
  (∀ s : State, exec (.peek 700) s = .next { s with err := true, cause := 5, rspData := 0, rspErr := 5 }) ∧
  (encode (.injWord true 0x12345678) = (0x00000016, 0x12345678) ∧
    decode 0x00000016 0x12345678 = .ok (.injWord true 0x12345678)) ∧
  (∀ d, decode 0x00000009 d = .error .reservedOpcode) ∧
  (∀ d, decode 0x00000012 d = .error .uNotApplicable) ∧
  (∀ d, decode 0x00010001 d = .error .idxNotApplicable) ∧
  (∀ d, decode 0x00000020 d = .error .res0NotZero)

/-- 30_encoding.md R75 and the table of R82: one word of every row of the opcode table, written out, decodes to its
command with the data operand in place. -/
def Obligations.TableWordsDecode : Prop :=
  ∀ d, decode 0x00000001 d = .ok (.seed d) ∧ decode 0x00000002 d = .ok .next ∧
    decode 0x00000003 d = .ok (.temper d) ∧ decode 0x00000004 d = .ok (.untemper d) ∧
    decode 0x00000005 d = .ok .injStart ∧ decode 0x00000006 d = .ok (.injWord false d) ∧
    decode 0x00000016 d = .ok (.injWord true d) ∧ decode 0x00000007 d = .ok .injCommit ∧
    decode 0x03FF0008 d = .ok (.peek 1023)

/-- Decoding the encoding of any command, with any operand, gives the command back. -/
def Obligations.DecodeOfEncodeIsTheCommand : Prop :=
  ∀ i : Instr, decode (encodeWord i) (encodeData i) = .ok i

/-- 30_encoding.md R78, R80 and 60_exceptions.md R202: every command word is either legal, and then one command whose
only encoding it is, or raises ILLEGAL in every state with no effect but that of an error. -/
def Obligations.LegalityDecidesEveryWord : Prop :=
  ∀ (w d : Word) (s : State),
    (legalWord w → ∃ i, decode w d = .ok i ∧ encodeWord i = w ∧ transact w d s = exec i s) ∧
    (¬ legalWord w → transact w d s = .next { s with err := true, cause := 1, rspData := 0, rspErr := 1 })

/-- 30_encoding.md R79: the data operand is the operand of SEED, TEMPER, UNTEMPER and INJ_WORD; NEXT, INJ_START,
INJ_COMMIT and PEEK ignore it; it is never checked, so every value of it is legal, and it never raises an error: with
any other value of it, a command of any word answers with the same error code. -/
def Obligations.DataOperandIsNeverChecked : Prop :=
  (∀ d, decode 1 d = .ok (.seed d) ∧ decode 3 d = .ok (.temper d) ∧ decode 4 d = .ok (.untemper d) ∧
    decode 6 d = .ok (.injWord false d) ∧ decode 0x16 d = .ok (.injWord true d)) ∧
  (∀ (w d d' : Word) (s : State),
    (w.toNat % 16 = 2 ∨ w.toNat % 16 = 5 ∨ w.toNat % 16 = 7 ∨ w.toNat % 16 = 8) →
      transact w d s = transact w d' s) ∧
  (∀ (w d d' : Word), (∃ i, decode w d = .ok i) → ∃ i, decode w d' = .ok i) ∧
  (∀ (w d d' : Word) (s t : State), transact w d s = .next t →
    ∃ t', transact w d' s = .next t' ∧ t'.rspErr = t.rspErr)

/-! ## Edges of the clock: the command port, the response port, reset -/

/-- 30_encoding.md R71, R81: at an edge that accepts a command whose word decodes to i, the step runs `exec i`, at the
state past the pin sample. That all of the command's effect is in the state at this edge is the model's choice (log 7),
and so are the form of the pin sample (log 9) and of the wait of LAT(i) - 1 further edges that the handshake is left in
(logs 3 and 8). -/
def Obligations.StepRunsTheDecodedCommand : Prop :=
  ∀ (s : State) (p : PortIn) (rest : List PortIn) (i : Instr),
    s.inputs = p :: rest → p.rst = false → p.cmdValid = true → s.phase = .ready →
    decode p.cmdWord p.cmdData = .ok i →
    step s =
      match exec i { s with inputs := rest, edges := s.edges + 1 } with
      | .next t => .next { t with phase := .executing (commandLatency i s) }
      | .fault f => .fault f
      | .refused r => .refused r

/-- 60_exceptions.md R202 at an edge: an accepted word that is no command raises ILLEGAL. That ERR, CAUSE and the
response are written at this edge is the model's choice (log 7), and so are the form of the pin sample (log 9) and of
the wait (logs 3 and 8). -/
def Obligations.StepOfAnIllegalWord : Prop :=
  ∀ (s : State) (p : PortIn) (rest : List PortIn),
    s.inputs = p :: rest → p.rst = false → p.cmdValid = true → s.phase = .ready → ¬ legalWord p.cmdWord →
    step s = .next { s with
      err := true, cause := 1, rspData := 0, rspErr := 1, phase := .executing s.lat.illegal,
      inputs := rest, edges := s.edges + 1 }

/-- 30_encoding.md R71: a command is accepted exactly at an edge with `rst` = 0, `cmd_valid` = 1 and `cmd_ready` = 1;
at any other edge `cmd_word` and `cmd_data` do not matter. That every architectural register and the response stand at
any other edge without reset, also while a command is outstanding, is the model's choice (log 7). -/
def Obligations.AcceptanceCondition : Prop :=
  ∀ (p : PortIn) (s : State),
    (p.rst = false ∧ p.cmdValid = true ∧ cmdReady p.rst s = true →
      clockEdge p s = acceptCommand p.cmdWord p.cmdData s) ∧
    (¬ (p.rst = false ∧ p.cmdValid = true ∧ cmdReady p.rst s = true) →
      (∀ w d, clockEdge { p with cmdWord := w, cmdData := d } s = clockEdge p s) ∧
      (p.rst = false → ∃ t, clockEdge p s = .next t ∧ t.engine = s.engine ∧ t.response = s.response))

/-- 30_encoding.md R72: `cmd_ready` is 1 exactly when `rst` = 0, no reset is in progress and no command is outstanding;
it falls at the edge that accepts a command, stays 0 while that command is outstanding and rises at the edge at which
its response is taken. -/
def Obligations.OneCommandOutstanding : Prop :=
  (∀ (r : Bool) (s : State), cmdReady r s = true ↔
    (r = false ∧ s.phase ≠ .inReset ∧ (∀ left, s.phase ≠ .waking left) ∧ s.outstanding = false)) ∧
  ∀ s t : State, step s = .next t →
    (accepts s = true → t.outstanding = true ∧ cmdReady false t = false) ∧
    ((sampledPins s).rst = false → s.outstanding = true →
      (rspValid false s = true ∧ (sampledPins s).rspReady = true → cmdReady false t = true) ∧
      (¬ (rspValid false s = true ∧ (sampledPins s).rspReady = true) → t.outstanding = true))

/-- 30_encoding.md R73: `rsp_valid` rises LAT(cmd) edges after acceptance. With k + 1 edges to wait, `rsp_valid` is 0
after each of the next k edges and 1 after the (k + 1)-th (edges counted as in log 8), whatever the host does but
reset. That the registers and the response are then those at the start of the wait is the model's choice (log 7), and
so is the host's record (log 11). -/
def Obligations.ResponseAfterLatency : Prop :=
  ∀ (k : Nat) (s : State), s.phase = .executing k → noReset (k + 1) s →
    (∀ m, m ≤ k → ∃ t, runSteps m s = .next t ∧ t.phase = .executing (k - m)) ∧
    ∃ t, runSteps (k + 1) s = .next t ∧ rspValid false t = true ∧ t.engine = s.engine ∧
      t.response = s.response ∧ t.taken = s.taken

/-- 30_encoding.md R70, R73, 93_implementation_defined.md U14: the ports show the handshake, the status port and, while
`rsp_valid` is 1, the response; while the response is not taken it is held and the engine stays as it is; when it is
taken the host has exactly that response (its record is the model's, log 11), and no other field moves. -/
def Obligations.ResponseHeldUntilTaken : Prop :=
  (∀ (r : Bool) (s : State), (portOut r s).cmdReady = cmdReady r s ∧ (portOut r s).rspValid = rspValid r s ∧
    (portOut r s).status = statusPort s ∧
    (rspValid r s = true → (portOut r s).rspData = s.rspData ∧ (portOut r s).rspErr = s.rspErr)) ∧
  ∀ s : State, s.phase = .responding → (sampledPins s).rst = false →
    rspValid false s = true ∧
    ((sampledPins s).rspReady = false → step s = .next { s with inputs := s.inputs.tail, edges := s.edges + 1 }) ∧
    ((sampledPins s).rspReady = true → step s = .next { s with
      phase := .ready, taken := s.taken ++ [⟨s.rspData, s.rspErr⟩], inputs := s.inputs.tail, edges := s.edges + 1 })

/-- 70_reset_and_hazards.md R240 to R242: an edge with `rst` = 1, in every state, sets the registers to their reset
values and STATUS to 0x00027000, leaves `MT` to the draw `RESET_MT` (log 2), and abandons an outstanding command: no
response is or becomes valid. The engine is then in the phase from which `LAT_RESET` is counted, with `cmd_ready` 0 even
when `rst` falls. The host's record of taken responses starts over (log 11). -/
def Obligations.ResetEdge : Prop :=
  ∀ s : State, (sampledPins s).rst = true →
    rspValid true s = false ∧
    ∃ t, step s = .next t ∧ t.index = 624 ∧ t.valid = false ∧ t.inj = false ∧ t.injcnt = 0 ∧ t.err = false ∧
      t.cause = 0 ∧ statusWord t = 0x00027000 ∧ t.mt = Config.resetMt (s.edges + 1) ∧
      t.phase = .inReset ∧ (∀ r, cmdReady r t = false) ∧
      t.outstanding = false ∧ (∀ r, rspValid r t = false) ∧ t.taken = [] ∧ t.lat = s.lat ∧ t.inputs = s.inputs.tail

/-- The reset values of 10_state.md R22 and R24 to R28 and of STATUS (R32), in the state the machine starts in; that this
state is the one after a reset edge, with `cmd_ready` 0 until `LAT_RESET` has passed, is the model's choice (log 10). -/
def Obligations.ResetStateRegisters : Prop :=
  State.reset.index = 624 ∧ State.reset.valid = false ∧ State.reset.inj = false ∧ State.reset.injcnt = 0 ∧
    State.reset.err = false ∧ State.reset.cause = 0 ∧ statusWord State.reset = 0x00027000 ∧
    State.reset.phase = .inReset ∧ cmdReady false State.reset = false

/-- 70_reset_and_hazards.md R242: `cmd_ready` is 0 while `rst` = 1; it rises LAT_RESET edges after the first edge with
`rst` = 0 and not before, whatever the host offers, and the registers are then those at the start of the wait. From which
edge the LAT_RESET cycles are counted, and at which edge the output is driven, is read from the spec by inference
(log 8, DEDUCED). -/
def Obligations.ReadyAfterResetLatency : Prop :=
  (∀ s : State, cmdReady true s = false) ∧
  ∀ s : State, s.phase = .inReset → noReset (s.lat.reset + 1) s →
    (∀ m, m ≤ s.lat.reset → ∃ t, runSteps m s = .next t ∧ cmdReady false t = false) ∧
    ∃ t, runSteps (s.lat.reset + 1) s = .next t ∧ cmdReady false t = true ∧ t.engine = s.engine

/-- 10_state.md R32: the fields of STATUS. -/
def Obligations.StatusLayout : Prop :=
  (∀ s : State,
    (statusWord s).getLsbD 0 = s.valid ∧ (statusWord s).getLsbD 1 = s.inj ∧ (statusWord s).getLsbD 2 = s.err ∧
    (statusWord s).getLsbD 3 = false ∧ (statusWord s).extractLsb' 4 4 = s.cause ∧
    (statusWord s).extractLsb' 8 10 = s.index ∧ (statusWord s).extractLsb' 18 10 = s.injcnt ∧
    (statusWord s).extractLsb' 28 4 = 0) ∧
  statusWord State.reset = 0x00027000

/-- 42_readback.md R171: the status port drives STATUS in the ready phase, and while `LAT_RESET` runs after the first
edge with `rst` = 0; that reset ends at that edge is read from the spec by inference (log 4, DEDUCED), and of the phase
before it, in reset, nothing is said here. While a command is outstanding the port is a draw, a fresh one at every edge
(the draw's form is the model's choice, log 4). -/
def Obligations.StatusPortShowsStatus : Prop :=
  (∀ s : State, s.phase = .ready → statusPort s = statusWord s) ∧
  (∀ (s : State) (left : Nat), s.phase = .waking left → statusPort s = statusWord s) ∧
  (∀ s : State, s.outstanding = true → statusPort s = Config.statusDraw s.edges) ∧
  (∀ s t : State, step s = .next t → t.edges = s.edges + 1)

/-! ## The commands -/

/-- SEED (40_generator.md R105) with `Expand` (R101), in every state and for every seed: the new array word by word,
the sequencer registers, the response, and nothing else. -/
def Obligations.SeedExpandsAndArms : Prop :=
  ∀ (v : Word) (s : State), ∃ mt' : StateArray,
    exec (.seed v) s = .next { s with
      mt := mt', index := 624, valid := true, inj := false, injcnt := 0, rspData := 0, rspErr := 0 } ∧
    mt'[0] = v ∧
    ∀ (i : Nat) (h : i < 623),
      mt'[i + 1] = 1812433253 * (mt'[i] ^^^ (mt'[i] >>> 30)) + BitVec.ofNat 32 (i + 1)

/-- NEXT (40_generator.md R106) with `VALID` = 1 and `INDEX` below 624: T of the word at the cursor, the cursor
advanced, and nothing else (no twist). -/
def Obligations.NextReadsAtTheCursor : Prop :=
  ∀ (s : State) (h : s.index.toNat < 624), s.valid = true →
    exec .next s = .next { s with
      index := s.index + 1, rspData := temper s.mt[s.index.toNat], rspErr := 0 }

/-- NEXT (R106) with `VALID` = 1 and `INDEX` 624 or above (10_state.md R23): one `Twist` (40_generator.md R102) word by
word, new words where the in-place order reads them, then T of the new word 0; `INDEX` is 1 and nothing else moves. -/
def Obligations.NextTwistsAtTheEnd : Prop :=
  ∀ s : State, 624 ≤ s.index.toNat → s.valid = true → ∃ mt' : StateArray,
    exec .next s = .next { s with mt := mt', index := 1, rspData := temper mt'[0], rspErr := 0 } ∧
    (∀ (i : Nat) (h : i < 227), mt'[i] =
      s.mt[i + 397] ^^^ mixBits ((s.mt[i] &&& 0x80000000) + (s.mt[i + 1] &&& 0x7FFFFFFF))) ∧
    (∀ (i : Nat) (h : i + 227 < 623), mt'[i + 227] =
      mt'[i] ^^^ mixBits ((s.mt[i + 227] &&& 0x80000000) + (s.mt[i + 228] &&& 0x7FFFFFFF))) ∧
    mt'[623] = mt'[396] ^^^ mixBits ((s.mt[623] &&& 0x80000000) + (mt'[0] &&& 0x7FFFFFFF))

/-- 60_exceptions.md R203: NEXT and PEEK raise NOT_READY when `VALID` = 0, with the effect of an error only. -/
def Obligations.NotReadyWithoutAState : Prop :=
  ∀ s : State, s.valid = false →
    exec .next s = .next { s with err := true, cause := 2, rspData := 0, rspErr := 2 } ∧
    ∀ idx : BitVec 10, idx.toNat < 624 →
      exec (.peek idx) s = .next { s with err := true, cause := 2, rspData := 0, rspErr := 2 }

/-- TEMPER (40_generator.md R107): the four steps of `T` (R100) on the operand, in every state; nothing but the
response is written. -/
def Obligations.TemperResponds : Prop :=
  ∀ (y : Word) (s : State), ∃ y1 y2 y3 y4 : Word,
    y1 = y ^^^ ((y >>> 11) &&& 0xFFFFFFFF) ∧ y2 = y1 ^^^ ((y1 <<< 7) &&& 0x9D2C5680) ∧
    y3 = y2 ^^^ ((y2 <<< 15) &&& 0xEFC60000) ∧ y4 = y3 ^^^ (y3 >>> 18) ∧
    exec (.temper y) s = .next { s with rspData := y4, rspErr := 0 }

/-- UNTEMPER (41_recoverer.md R142): the response is the one word whose tempering is the operand, in every state;
nothing but the response is written. -/
def Obligations.UntemperResponds : Prop :=
  ∀ (y : Word) (s : State), ∃ x : Word,
    exec (.untemper y) s = .next { s with rspData := x, rspErr := 0 } ∧ temper x = y ∧ ∀ x', temper x' = y → x' = x

/-- 41_recoverer.md R141, first sentence: `UT` and `T` are inverse on all 2^32 words. -/
def Obligations.UntemperInvertsTemper : Prop :=
  ∀ y : Word, untemper (temper y) = y ∧ temper (untemper y) = y

/-- The fixed points of `T` (40_generator.md R107) and of `UT` (41_recoverer.md R142): exactly the same eight words. -/
def Obligations.TemperFixedPoints : Prop :=
  ∀ y : Word, (temper y = y ↔ y ∈ [0x00, 0x02, 0x10, 0x12, 0x40, 0x42, 0x50, 0x52]) ∧
    (untemper y = y ↔ y ∈ [0x00, 0x02, 0x10, 0x12, 0x40, 0x42, 0x50, 0x52])

/-- 41_recoverer.md R140, R141: with one repetition fewer of the s-step, or of the u-step, the inverse fails. -/
def Obligations.UntemperCountsCannotBeReduced : Prop :=
  (∃ y, untemperWith 6 3 (temper y) ≠ y) ∧ (∃ y, untemperWith 7 2 (temper y) ≠ y) ∧
    ∀ y, untemper y = untemperWith 7 3 y

/-- INJ_START (41_recoverer.md R143), in every state: `INJ`, `VALID`, `INJCNT` and the response; `MT` and `INDEX`
unchanged. -/
def Obligations.InjStartOpensAnInjection : Prop :=
  ∀ s : State, exec .injStart s = .next { s with inj := true, valid := false, injcnt := 0, rspData := 0, rspErr := 0 }

/-- INJ_WORD (41_recoverer.md R144) in an open injection with fewer than 624 words: the word (untempered when U = 1,
30_encoding.md R76) goes to `MT[INJCNT]` and to the response, `INJCNT` advances; every other state word reads as
before and no other field moves. -/
def Obligations.InjWordWritesOneWord : Prop :=
  ∀ (u : Bool) (d : Word) (s : State) (h : s.injcnt.toNat < 624), s.inj = true →
    ∃ (w : Word) (mt' : StateArray),
      exec (.injWord u d) s = .next { s with mt := mt', injcnt := s.injcnt + 1, rspData := w, rspErr := 0 } ∧
      (u = false → w = d) ∧ (u = true → w = untemper d) ∧
      mt'[s.injcnt.toNat] = w ∧ ∀ (j : Nat) (hj : j < 624), j ≠ s.injcnt.toNat → mt'[j] = s.mt[j]

/-- The model's stop (log 13): INJ_WORD in an open injection with `INJCNT` above 624, a value no run reaches
(10_state.md R26), has no state word to write. -/
def Obligations.InjWordStopsPastTheArray : Prop :=
  ∀ (u : Bool) (d : Word) (s : State), s.inj = true → 624 < s.injcnt.toNat →
    exec (.injWord u d) s = .fault .stateIndexAbsent

/-- INJ_COMMIT (41_recoverer.md R145) after exactly 624 words: the injection closes, the state is usable, the cursor is
624; `MT` and the rest unchanged. -/
def Obligations.InjCommitArmsTheState : Prop :=
  ∀ s : State, s.inj = true → s.injcnt = 624#10 →
    exec .injCommit s = .next { s with
      inj := false, injcnt := 0, valid := true, index := 624, rspData := 0, rspErr := 0 }

/-- PEEK (42_readback.md R170) of a word that exists, with `VALID` = 1: the raw word, and nothing else: no twist and no
change of `INDEX`. -/
def Obligations.PeekReadsTheRawWord : Prop :=
  ∀ (idx : BitVec 10) (s : State) (h : idx.toNat < 624), s.valid = true →
    exec (.peek idx) s = .next { s with rspData := s.mt[idx.toNat], rspErr := 0 }

/-! ## Errors -/

/-- 60_exceptions.md R204: INJ_WORD and INJ_COMMIT raise SEQUENCE when no injection is open. -/
def Obligations.SequenceWithoutAnInjection : Prop :=
  ∀ s : State, s.inj = false →
    (∀ u d, exec (.injWord u d) s = .next { s with err := true, cause := 3, rspData := 0, rspErr := 3 }) ∧
    exec .injCommit s = .next { s with err := true, cause := 3, rspData := 0, rspErr := 3 }

/-- 60_exceptions.md R205: in an open injection, INJ_WORD raises LENGTH when 624 words have been written and INJ_COMMIT
when fewer have; the injection closes (R208) and `VALID` is 0. -/
def Obligations.LengthOnAWrongCount : Prop :=
  ∀ s : State, s.Inv → s.inj = true →
    (s.injcnt = 624#10 → ∀ u d, exec (.injWord u d) s = .next { s with
      inj := false, injcnt := 0, valid := false, err := true, cause := 4, rspData := 0, rspErr := 4 }) ∧
    (s.injcnt.toNat < 624 → exec .injCommit s = .next { s with
      inj := false, injcnt := 0, valid := false, err := true, cause := 4, rspData := 0, rspErr := 4 })

/-- 60_exceptions.md R206: PEEK of an index 624 or more raises RANGE. -/
def Obligations.RangeOnAnAbsentIndex : Prop :=
  ∀ (idx : BitVec 10) (s : State), 624 ≤ idx.toNat →
    exec (.peek idx) s = .next { s with err := true, cause := 5, rspData := 0, rspErr := 5 }

/-- 60_exceptions.md R207: ILLEGAL first; for PEEK, RANGE before NOT_READY; for INJ_WORD and INJ_COMMIT, SEQUENCE
before LENGTH; NEXT can raise only NOT_READY. -/
def Obligations.ErrorPriority : Prop :=
  ∀ s t : State,
    (∀ w d, ¬ legalWord w → transact w d s = .next t → t.rspErr = 1) ∧
    (∀ idx : BitVec 10, 624 ≤ idx.toNat → s.valid = false → exec (.peek idx) s = .next t → t.rspErr = 5) ∧
    (∀ u d, s.inj = false → s.injcnt = 624#10 → exec (.injWord u d) s = .next t → t.rspErr = 3) ∧
    (s.inj = false → s.injcnt ≠ 624#10 → exec .injCommit s = .next t → t.rspErr = 3) ∧
    (exec .next s = .next t → t.rspErr = 0 ∨ t.rspErr = 2)

/-- 60_exceptions.md R208: a command that raises an error changes neither `MT`, `INDEX` nor `VALID`, and neither `INJ`
nor `INJCNT` except that LENGTH sets both to 0, leaving `VALID` = 0; ERR is 1, CAUSE and `rsp_err` are the code and
`rsp_data` is 0. -/
def Obligations.ErrorEffect : Prop :=
  ∀ (w d : Word) (s t : State), s.Inv → transact w d s = .next t → t.rspErr ≠ 0 →
    t.mt = s.mt ∧ t.index = s.index ∧ t.valid = s.valid ∧ t.err = true ∧ t.cause = t.rspErr ∧ t.rspData = 0 ∧
    (t.rspErr ≠ 4 → t.inj = s.inj ∧ t.injcnt = s.injcnt) ∧
    (t.rspErr = 4 → t.inj = false ∧ t.injcnt = 0 ∧ t.valid = false)

/-- 60_exceptions.md R209, 10_state.md R27 and R28: every error sets ERR and writes its code to CAUSE; a successful
command changes neither; over a whole edge only reset clears either of them, and reset clears both. That an edge which
accepts no command changes neither, also while a command is outstanding, is the model's choice (log 7). -/
def Obligations.ErrorRecordIsSticky : Prop :=
  (∀ (w d : Word) (s t : State), transact w d s = .next t →
    (t.rspErr ≠ 0 → t.err = true ∧ t.cause = t.rspErr) ∧ (t.rspErr = 0 → t.err = s.err ∧ t.cause = s.cause)) ∧
  (∀ s t : State, step s = .next t → (sampledPins s).rst = false →
    (s.err = true → t.err = true) ∧ (s.cause ≠ 0 → t.cause ≠ 0) ∧
    (accepts s = false → t.err = s.err ∧ t.cause = s.cause)) ∧
  (∀ s t : State, step s = .next t → (sampledPins s).rst = true → t.err = false ∧ t.cause = 0)

/-- 60_exceptions.md R201: the codes and who raises each; a success is code 0; codes 6 to 15 are never produced. -/
def Obligations.ErrorCodesAndTheirRaisers : Prop :=
  (∀ (w d : Word) (s t : State), transact w d s = .next t →
    t.rspErr.toNat ≤ 5 ∧ (t.rspErr = 1 ↔ ¬ legalWord w)) ∧
  (∀ (i : Instr) (s t : State), exec i s = .next t →
    (t.rspErr = 2 → s.valid = false ∧ (i = .next ∨ ∃ idx, i = .peek idx)) ∧
    (t.rspErr = 3 → s.inj = false ∧ ((∃ u d, i = .injWord u d) ∨ i = .injCommit)) ∧
    (t.rspErr = 4 → s.inj = true ∧ (((∃ u d, i = .injWord u d) ∧ s.injcnt = 624#10) ∨
      (i = .injCommit ∧ s.injcnt ≠ 624#10))) ∧
    (t.rspErr = 5 → ∃ idx : BitVec 10, i = .peek idx ∧ 624 ≤ idx.toNat))

/-! ## The whole machine -/

/-- 10_state.md R33, the W entries: which commands may change `MT`, `INDEX`, `VALID`, `INJ` and `INJCNT`; and no
command touches the handshake, the host's record, its inputs, the latencies or the edge count. -/
def Obligations.RegisterWriters : Prop :=
  ∀ (i : Instr) (s t : State), exec i s = .next t →
    (t.mt ≠ s.mt → (∃ v, i = .seed v) ∨ (i = .next ∧ s.valid = true ∧ 624 ≤ s.index.toNat) ∨
      ∃ u d, i = .injWord u d) ∧
    (t.index ≠ s.index → (∃ v, i = .seed v) ∨ i = .next ∨ i = .injCommit) ∧
    (t.valid ≠ s.valid → (∃ v, i = .seed v) ∨ i = .injStart ∨ i = .injCommit) ∧
    (t.inj ≠ s.inj → (∃ v, i = .seed v) ∨ i = .injStart ∨ i = .injCommit ∨
      ∃ u d, i = .injWord u d ∧ t.rspErr = 4) ∧
    (t.injcnt ≠ s.injcnt → (∃ v, i = .seed v) ∨ i = .injStart ∨ i = .injCommit ∨ ∃ u d, i = .injWord u d) ∧
    t.phase = s.phase ∧ t.taken = s.taken ∧ t.inputs = s.inputs ∧ t.lat = s.lat ∧ t.edges = s.edges

/-- 10_state.md R20 over a whole edge: the state array changes only at a reset edge or where SEED, a twisting NEXT or
INJ_WORD is accepted. That it changes at the accepting edge and at no later one is the model's choice (log 7). -/
def Obligations.StateArrayWriters : Prop :=
  ∀ s t : State, step s = .next t → t.mt ≠ s.mt →
    (sampledPins s).rst = true ∨
    (accepts s = true ∧ ∃ i, decode (sampledPins s).cmdWord (sampledPins s).cmdData = .ok i ∧
      ((∃ v, i = .seed v) ∨ (i = .next ∧ s.valid = true ∧ 624 ≤ s.index.toNat) ∨ ∃ u d, i = .injWord u d))

/-- 10_state.md R29, items 1 to 4 and 6, with the codes that exist (60_exceptions.md R201) and no data with an error
(R200): every step keeps them. R29 speaks of the registers between commands; that they hold at the edges at which a
command is outstanding too rests on the model's choice of the accepting edge for the whole effect (log 7), and what the
response registers hold after a reset edge is the model's choice (log 6). -/
def Obligations.InvariantKeptByEveryStep : Prop :=
  ∀ s t : State, s.Inv → step s = .next t → t.Inv

/-- The invariant holds right after reset: the registers by 10_state.md R22 and R24 to R28, the response registers by the
model's reset values for them (log 6). -/
def Obligations.InvariantAtReset : Prop := State.reset.Inv

/-- 60_exceptions.md R200, 70_reset_and_hazards.md R250: under the invariant no edge stops the engine, whatever the
host does, and every command answers. -/
def Obligations.EngineNeverStops : Prop :=
  ∀ s : State, s.Inv → (∃ t, step s = .next t) ∧ ∀ w d, ∃ t, transact w d s = .next t

/-- 40_generator.md R108: from `INDEX` = 624 and `VALID` = 1 the k-th NEXT twists exactly when k mod 624 = 1, and after
it `INDEX` is ((k - 1) mod 624) + 1. -/
def Obligations.TwistSchedule : Prop :=
  ∀ (s : State), s.valid = true → s.index = 624#10 → ∀ k : Nat, 1 ≤ k →
    ∃ (t u : State) (rt ru : List Response),
      runCommands (nextCommands (k - 1)) s = some (t, rt) ∧ runCommands (nextCommands k) s = some (u, ru) ∧
      u.index.toNat = (k - 1) % 624 + 1 ∧
      (k % 624 = 1 → 624 ≤ t.index.toNat ∧ u.mt = twist t.mt) ∧
      (k % 624 ≠ 1 → t.index.toNat < 624 ∧ u.mt = t.mt)

/-- 40_generator.md R104: the twist is the recurrence, for every later generation too. -/
def Obligations.TwistFollowsTheRecurrence : Prop :=
  ∀ (mt : StateArray) (X : Nat → Word), beginsWith X mt → isTwistSequence X →
    ∀ (g i : Nat) (h : i < 624), (Nat.iterate twist g mt)[i] = X (624 * g + i)

/-- 40_generator.md R103: the addition of a twist pass, with the masks the model's twist uses, never carries, so it
equals OR, and bit 0 of x is bit 0 of the next word; the word a pass writes is therefore the OR form's, XORed with
0x9908B0DF exactly when the next word is odd. -/
def Obligations.TwistAdditionNeverCarries : Prop :=
  ∀ cur succ mid : Word,
    (cur &&& upperMask) + (succ &&& lowerMask) = (cur &&& 0x80000000) ||| (succ &&& 0x7FFFFFFF) ∧
    ((cur &&& upperMask) + (succ &&& lowerMask)).getLsbD 0 = succ.getLsbD 0 ∧
    twistWord cur succ mid = mid ^^^ (((cur &&& 0x80000000) ||| (succ &&& 0x7FFFFFFF)) >>> 1) ^^^
      (if succ.getLsbD 0 = true then 0x9908B0DF else 0)

/-- 40_generator.md R110: after SEED, and after an injection is committed, the j-th NEXT response is T(X[624 + j]),
with X the recurrence continued from the seed expansion, or from the injected words; commands in between that change
no state do not disturb it. -/
def Obligations.OutputStreamClosedForm : Prop :=
  ∀ (X : Nat → Word), isTwistSequence X → ∀ (cs : List (Word × Word)), (∀ c ∈ cs, keepsStream c = true) →
    (∀ (seed : Word) (s : State), beginsWithSeed X seed →
      ∃ u r rs, runCommands ((0x00000001, seed) :: cs) s = some (u, r :: rs) ∧ rs.length = cs.length ∧
        nextResponses cs rs =
          (List.range (nextResponses cs rs).length).map fun j => ⟨temper (X (624 + j)), 0⟩) ∧
    (∀ (d : Word) (s : State), s.inj = true → s.injcnt = 624#10 → beginsWith X s.mt →
      ∃ u r rs, runCommands ((0x00000007, d) :: cs) s = some (u, r :: rs) ∧ rs.length = cs.length ∧
        nextResponses cs rs =
          (List.range (nextResponses cs rs).length).map fun j => ⟨temper (X (624 + j)), 0⟩)

/-- 40_generator.md R109: after SEED every response is a function of the seed and of the commands since: two engines in
any two states, given the same SEED and then the same commands, give the same responses. -/
def Obligations.SeedDeterminesEveryResponse : Prop :=
  ∀ (seed : Word) (cs : List (Word × Word)) (s s' : State),
    ∃ u u' rs, runCommands ((0x00000001, seed) :: cs) s = some (u, rs) ∧
      runCommands ((0x00000001, seed) :: cs) s' = some (u', rs) ∧ rs.length = cs.length + 1

/-- 40_generator.md R106, corner case: with 624 zero words every NEXT responds 0 and the words stay zero. -/
def Obligations.ZeroStateStaysZero : Prop :=
  ∀ (s : State) (k : Nat), s.Inv → s.valid = true → s.mt = Vector.replicate 624 0 →
    ∃ t, runCommands (nextCommands k) s = some (t, List.replicate k ⟨0, 0⟩) ∧ t.mt = Vector.replicate 624 0

/-- 41_recoverer.md R146: CLONE with 624 words, from any state, loads the untempered words in order, makes the state
usable with the cursor at 624 and raises no error; and it leaves what untempering first and loading with U = 0 leaves. -/
def Obligations.CloneLoadsTheUntemperedWords : Prop :=
  ∀ (ys : Vector Word 624) (s : State),
    ∃ t rs, runCommands (cloneCommands ys.toList) s = some (t, rs) ∧ t.mt = ys.map untemper ∧ t.valid = true ∧
      t.index = 624 ∧ t.inj = false ∧ t.injcnt = 0 ∧ t.err = s.err ∧ t.cause = s.cause ∧ (∀ r ∈ rs, r.err = 0) ∧
      runCommands (loadCommands (ys.toList.map untemper)) s = some (t, rs)

/-- 41_recoverer.md R147: clone fidelity. The next 624 NEXT responses of any usable source, at any position of its
stream, cloned into any target, give a target whose every later NEXT response is the source's. -/
def Obligations.CloneFidelity : Prop :=
  ∀ (s t : State), s.Inv → s.valid = true →
    ∃ (s1 t1 : State) (ys rs : List Response),
      runCommands (nextCommands 624) s = some (s1, ys) ∧
      runCommands (cloneCommands (ys.map fun r => r.data)) t = some (t1, rs) ∧ (∀ r ∈ rs, r.err = 0) ∧
      ∀ m : Nat, ∃ (s2 t2 : State) (out : List Response),
        runCommands (nextCommands m) s1 = some (s2, out) ∧ runCommands (nextCommands m) t1 = some (t2, out) ∧
        out.length = m

/-- 10_state.md R20, R29 item 5: no state word is read before a SEED or a completed injection has written it. Two
engines that differ only in unwritten words step alike, differ only in unwritten words afterwards, and so give the
same responses; the content `RESET_MT` of the array after reset cannot be observed. The response registers are
compared at every edge and the host's record is the model's (logs 7 and 11). -/
def Obligations.UnwrittenWordsAreUnobservable : Prop :=
  ∀ s t s' : State, agreeOnWritten s t → step s = .next s' →
    ∃ t', step t = .next t' ∧ agreeOnWritten s' t' ∧ t'.taken = s'.taken ∧ t'.response = s'.response

/-- 20_memory.md R59, 30_encoding.md R72, R73: the machine at the level of edges is the machine at the level of
transactions. Over any run without reset, from any state of the invariant and whatever the host does, the commands
accepted, executed one after another as transactions, leave the same registers and give, in order and once each,
exactly the responses the host has taken and that of the command still outstanding, if there is one. That a command
counts from the edge that accepts it, before `rsp_valid` rises, is the model's choice (log 7), and the record of the
responses taken is the model's (log 11). -/
def Obligations.EdgesRefineTransactions : Prop :=
  ∀ (k : Nat) (s t : State), s.Inv → noReset k s → runSteps k s = .next t →
    ∃ u rs, runCommands (acceptedCommands k s) s = some (u, rs) ∧ u.engine = t.engine ∧
      s.taken ++ pendingResponses s ++ rs = t.taken ++ pendingResponses t

/-- 20_memory.md R56: PEEK, TEMPER and UNTEMPER have no side effect on `MT` or the sequencer registers but the record
ERR and CAUSE of a PEEK that ends in an error, and repeating one with the same operands gives the same response. -/
def Obligations.ReadsAreIdempotent : Prop :=
  ∀ (i : Instr) (s t : State), ((∃ d, i = .temper d) ∨ (∃ d, i = .untemper d) ∨ ∃ idx, i = .peek idx) →
    exec i s = .next t →
    t.mt = s.mt ∧ t.index = s.index ∧ t.valid = s.valid ∧ t.inj = s.inj ∧ t.injcnt = s.injcnt ∧ exec i t = .next t

/-! ## Assembler and system -/

/-- 30_encoding.md R82: the table of lines and their `(cmd_word, cmd_data)` pairs, for every operand that fits its
field; a line whose operand does not fit is refused. -/
def Obligations.AssemblerTable : Prop :=
  (∀ v : Nat, v < 2 ^ 32 →
    assembleLine (.seed v) = some [(0x00000001, BitVec.ofNat 32 v)] ∧
    assembleLine (.temper v) = some [(0x00000003, BitVec.ofNat 32 v)] ∧
    assembleLine (.untemper v) = some [(0x00000004, BitVec.ofNat 32 v)] ∧
    assembleLine (.injWord v) = some [(0x00000006, BitVec.ofNat 32 v)] ∧
    assembleLine (.injWordU v) = some [(0x00000016, BitVec.ofNat 32 v)]) ∧
  assembleLine .next = some [(0x00000002, 0)] ∧ assembleLine .injStart = some [(0x00000005, 0)] ∧
  assembleLine .injCommit = some [(0x00000007, 0)] ∧
  (∀ i : Nat, i < 1024 → assembleLine (.peek i) = some [(BitVec.ofNat 32 (i * 65536 + 8), 0)]) ∧
  (∀ v : Nat, 2 ^ 32 ≤ v → assembleLine (.seed v) = none ∧ assembleLine (.temper v) = none ∧
    assembleLine (.untemper v) = none ∧ assembleLine (.injWord v) = none ∧ assembleLine (.injWordU v) = none) ∧
  (∀ i : Nat, 1024 ≤ i → assembleLine (.peek i) = none)

/-- 30_encoding.md R83: NEW, LOAD and CLONE expand to their fixed sequences (626 commands for LOAD and CLONE), and any
count of operands other than 624 is refused. -/
def Obligations.PseudoCommandExpansions : Prop :=
  (∀ v : Nat, assembleLine (.newGen v) = assembleLine (.seed v)) ∧
  (∀ ws : List Word, ws.length = 624 →
    assembleLine (.load (ws.map BitVec.toNat)) = some (loadCommands ws) ∧ (loadCommands ws).length = 626 ∧
    assembleLine (.clone (ws.map BitVec.toNat)) = some (cloneCommands ws) ∧ (cloneCommands ws).length = 626) ∧
  (∀ ws : List Nat, ws.length ≠ 624 → assembleLine (.load ws) = none ∧ assembleLine (.clone ws) = none)

/-- 60_exceptions.md R215: engines share no state: in a system of any number of engines from 1 on, an edge of one engine
leaves every other as it was and does to its own what its own step does, whatever the others hold (the form of a
system's step is the model's, log 17). -/
def Obligations.EnginesShareNothing : Prop :=
  ∀ (nEngines : EngineCount) (k : Fin nEngines.val) (sys sys' : EngineSystem nEngines), systemStep k sys = some sys' →
    (∀ j : Fin nEngines.val, j ≠ k → sys'[j.val] = sys[j.val]) ∧ step sys[k.val] = .next sys'[k.val]

/-- 20_memory.md R52, 00_scope.md R7: whatever the byte order of a bus adapter, a word and its four bytes on the bus
determine each other, so a command offered through the adapter is, to the engine, the command offered on its ports,
and a host reads back `rsp_data` and STATUS whole (an order is any order of the four bytes, log 19). -/
def Obligations.BusAdapterMovesWholeWords : Prop :=
  ∀ busByteOrder : BusByteOrder,
    (∀ w : Word, fromBus busByteOrder (toBus busByteOrder w) = w) ∧
    (∀ bytes : BusWord, toBus busByteOrder (fromBus busByteOrder bytes) = bytes) ∧
    (∀ (w d : Word) (s : State),
      step { s with inputs := offerBytes busByteOrder (toBus busByteOrder w) (toBus busByteOrder d) :: s.inputs } =
        step { s with inputs := offerPins w d :: s.inputs }) ∧
    (∀ (r : Bool) (s : State), fromBus busByteOrder (rspDataBytes busByteOrder r s) = (portOut r s).rspData ∧
      fromBus busByteOrder (statusBytes busByteOrder s) = statusPort s)
end

