-- ==== Sys2Proof/Laws/Algorithm.lean ====
section
/-! SUPPORT. What `Expand` and `Twist` leave in each state word, the list forms the kernel evaluates quickly, and the
existence of the sequence of 40_generator.md R104. -/

namespace Sys2Proof.Machine

/-! Reading and writing one state word. -/

@[simp] theorem stateIndex_val (k : Nat) : (stateIndex k).val = k % 624 := rfl

theorem stateIndex_of_lt {k : Nat} (h : k < 624) : stateIndex k = ⟨k, h⟩ :=
  Fin.ext (Nat.mod_eq_of_lt h)

@[simp] theorem readWord_writeWord_self (mt : StateArray) (i : Fin 624) (v : Word) :
    readWord (writeWord mt i v) i = v := by simp [readWord, writeWord]

theorem readWord_writeWord_ne (mt : StateArray) {i j : Fin 624} (h : i ≠ j) (v : Word) :
    readWord (writeWord mt i v) j = readWord mt j := by
  have : i.val ≠ j.val := fun e => h (Fin.ext e)
  simp [readWord, writeWord, Vector.getElem_set_ne, this]

theorem readWord_stateIndex (mt : StateArray) {i : Nat} (h : i < 624) : readWord mt (stateIndex i) = mt[i] := by
  simp [stateIndex_of_lt h, readWord]

/-- Two arrays with the same words are the same array. -/
theorem stateArray_ext {a b : StateArray} (h : ∀ i, i < 624 → readWord a (stateIndex i) = readWord b (stateIndex i)) :
    a = b := by
  apply Vector.ext
  intro i hi
  have := h i hi
  rwa [readWord_stateIndex a hi, readWord_stateIndex b hi] at this

/-! `Expand`. -/

theorem expand_eq (seed : Word) (mt : StateArray) :
    expand seed mt = forUp expandStep 1 623 (writeWord mt (stateIndex 0) seed) := rfl

/-- Word i of the seed expansion, by the recurrence of R101. -/
def expandWord (seed : Word) : Nat → Word
  | 0 => seed
  | i + 1 => seedF * (expandWord seed i ^^^ (expandWord seed i >>> 30)) + BitVec.ofNat 32 (i + 1)

/-- After k passes the words up to k are the expansion's. -/
theorem expand_prefix (seed : Word) (mt : StateArray) (k : Nat) (hk : k ≤ 623) :
    ∀ i, i ≤ k → readWord (forUp expandStep 1 k (writeWord mt (stateIndex 0) seed)) (stateIndex i)
      = expandWord seed i := by
  induction k with
  | zero => intro i hi; obtain rfl : i = 0 := by omega
            simp [forUp, expandWord]
  | succ k ih =>
    intro i hi
    have ih' := ih (by omega)
    simp only [forUp, expandStep]
    rw [show 1 + k - 1 = k by omega, ih' k (Nat.le_refl k)]
    by_cases e : i = 1 + k
    · subst e
      rw [readWord_writeWord_self, Nat.add_comm 1 k]
      rfl
    · rw [readWord_writeWord_ne, ih' i (by omega)]
      intro h
      have := congrArg Fin.val h
      simp at this
      omega

/-- `Expand` leaves the expansion's word at every index, whatever stood there before (R101). -/
theorem readWord_expand (seed : Word) (mt : StateArray) {i : Nat} (h : i < 624) :
    readWord (expand seed mt) (stateIndex i) = expandWord seed i := by
  rw [expand_eq]
  exact expand_prefix seed mt 623 (Nat.le_refl _) i (by omega)

/-- `Expand` does not depend on the words it overwrites. -/
theorem expand_indep (seed : Word) (mt mt' : StateArray) : expand seed mt = expand seed mt' :=
  stateArray_ext fun i hi => by rw [readWord_expand seed mt hi, readWord_expand seed mt' hi]

/-! `Twist`. -/

theorem twist_eq (mt : StateArray) : twist mt = forUp twistStep 0 624 mt := rfl

/-- After k passes, words k and up are untouched. -/
theorem twist_untouched (mt : StateArray) (k : Nat) :
    ∀ i, k ≤ i → i < 624 → readWord (forUp twistStep 0 k mt) (stateIndex i) = readWord mt (stateIndex i) := by
  induction k with
  | zero => intros; rfl
  | succ k ih =>
    intro i hi hi'
    rw [forUp, twistStep, readWord_writeWord_ne, ih i (by omega) hi']
    intro h
    have := congrArg Fin.val h
    simp at this
    omega

/-- A word written in pass i keeps its value to the end. -/
theorem twist_settled (mt : StateArray) (i : Nat) (k : Nat) (hik : i < k) (hk : k ≤ 624) :
    readWord (forUp twistStep 0 k mt) (stateIndex i) = readWord (forUp twistStep 0 (i + 1) mt) (stateIndex i) := by
  induction k with
  | zero => omega
  | succ k ih =>
    by_cases e : i = k
    · subst e; rfl
    · rw [← ih (by omega) (by omega), forUp, twistStep, readWord_writeWord_ne]
      intro h
      have := congrArg Fin.val h
      simp at this
      omega

/-- Pass i, with every read of the array it has (R102). -/
theorem readWord_twist_pass (mt : StateArray) {i : Nat} (h : i < 624) :
    readWord (twist mt) (stateIndex i) =
      twistWord (readWord (forUp twistStep 0 i mt) (stateIndex i))
        (readWord (forUp twistStep 0 i mt) (stateIndex (i + 1)))
        (readWord (forUp twistStep 0 i mt) (stateIndex (i + 397))) := by
  rw [twist_eq, twist_settled mt i 624 h (Nat.le_refl _), forUp, twistStep, Nat.zero_add, readWord_writeWord_self]

/-- Words 0 to 226: every read is of an old word (R102). -/
theorem readWord_twist_low (mt : StateArray) {i : Nat} (h : i < 227) :
    readWord (twist mt) (stateIndex i) = twistWord (readWord mt (stateIndex i)) (readWord mt (stateIndex (i + 1)))
      (readWord mt (stateIndex (i + 397))) := by
  rw [readWord_twist_pass mt (by omega), twist_untouched mt i i (Nat.le_refl _) (by omega),
    twist_untouched mt i (i + 1) (by omega) (by omega), twist_untouched mt i (i + 397) (by omega) (by omega)]

/-- Words 227 to 622: the third read is of a new word (R102). -/
theorem readWord_twist_high (mt : StateArray) {i : Nat} (h : 227 ≤ i) (h' : i < 623) :
    readWord (twist mt) (stateIndex i) = twistWord (readWord mt (stateIndex i)) (readWord mt (stateIndex (i + 1)))
      (readWord (twist mt) (stateIndex (i - 227))) := by
  have e : stateIndex (i + 397) = stateIndex (i - 227) := Fin.ext (by simp; omega)
  rw [readWord_twist_pass mt (by omega), twist_untouched mt i i (Nat.le_refl _) (by omega),
    twist_untouched mt i (i + 1) (by omega) (by omega), e, twist_eq,
    twist_settled mt (i - 227) i (by omega) (by omega), ← twist_settled mt (i - 227) 624 (by omega) (by omega)]

/-- Word 623: its second and third reads are of new words (R102). -/
theorem readWord_twist_last (mt : StateArray) :
    readWord (twist mt) (stateIndex 623) = twistWord (readWord mt (stateIndex 623))
      (readWord (twist mt) (stateIndex 0)) (readWord (twist mt) (stateIndex 396)) := by
  have e : stateIndex (623 + 397) = stateIndex 396 := rfl
  have e' : stateIndex (623 + 1) = stateIndex 0 := rfl
  rw [readWord_twist_pass mt (by omega), twist_untouched mt 623 623 (Nat.le_refl _) (by omega), e, e', twist_eq,
    twist_settled mt 0 623 (by omega) (by omega), twist_settled mt 396 623 (by omega) (by omega),
    ← twist_settled mt 0 624 (by omega) (by omega), ← twist_settled mt 396 624 (by omega) (by omega)]

/-! List forms: the same words, built front to back, so that the kernel computes one quickly. -/

/-- `count` words of the seed expansion from word i, which is w. -/
def expandFrom : Nat → Nat → Word → List Word
  | 0, _, _ => []
  | count + 1, i, w => w :: expandFrom count (i + 1) (seedF * (w ^^^ (w >>> 30)) + BitVec.ofNat 32 (i + 1))

/-- The seed expansion as a list. -/
def expandList (seed : Word) : List Word := expandFrom 624 0 seed

theorem expandFrom_getElem? (seed : Word) (count i j : Nat) :
    (expandFrom count i (expandWord seed i))[j]? = if j < count then some (expandWord seed (i + j)) else none := by
  induction count generalizing i j with
  | zero => simp [expandFrom]
  | succ count ih =>
    cases j with
    | zero => simp [expandFrom]
    | succ j =>
      have : (expandFrom (count + 1) i (expandWord seed i))[j + 1]? =
          (expandFrom count (i + 1) (expandWord seed (i + 1)))[j]? := rfl
      rw [this, ih, Nat.add_right_comm, Nat.add_assoc i j 1]
      simp

/-- A state array's list of words, word by word. -/
theorem toList_getElem? (mt : StateArray) (i : Nat) :
    mt.toList[i]? = if i < 624 then some (readWord mt (stateIndex i)) else none := by
  by_cases h : i < 624
  · simp [h, readWord_stateIndex mt h]
  · simp [h]

theorem expand_toList (seed : Word) (mt : StateArray) : (expand seed mt).toList = expandList seed := by
  apply List.ext_getElem?
  intro i
  have := expandFrom_getElem? seed 624 0 i
  rw [toList_getElem?, expandList, show seed = expandWord seed 0 from rfl, this]
  by_cases h : i < 624
  · simp [h, readWord_expand (expandWord seed 0) mt h]
    rfl
  · simp [h]

/-- Twist words from adjacent current words and the words 397 places on. -/
def zipTwist : List Word → List Word → List Word
  | c :: s :: cs, m :: ms => twistWord c s m :: zipTwist (s :: cs) ms
  | [], _ => []
  | [_], _ => []
  | _ :: _ :: _, [] => []

/-- The twist as a list: words 0 to 226 from old words, 227 to 453 from the first block, the rest from the second. -/
def twistList (l : List Word) : List Word :=
  let a := zipTwist l (l.drop 397)
  let b := zipTwist (l.drop 227) a
  a ++ (b ++ zipTwist (l.drop 454 ++ a.take 1) b)

theorem zipTwist_length (l m : List Word) : (zipTwist l m).length = min (l.length - 1) m.length := by
  induction l, m using zipTwist.induct with
  | case1 c s cs m ms ih => simp [zipTwist, ih]
  | case2 => simp [zipTwist]
  | case3 => simp [zipTwist]
  | case4 => simp [zipTwist]

theorem zipTwist_getElem? (l m : List Word) (i : Nat) {c s w : Word} (hc : l[i]? = some c) (hs : l[i + 1]? = some s)
    (hw : m[i]? = some w) : (zipTwist l m)[i]? = some (twistWord c s w) := by
  induction l, m using zipTwist.induct generalizing i with
  | case1 c' s' cs m' ms ih =>
    cases i with
    | zero => simp_all [zipTwist]
    | succ i => simpa [zipTwist] using ih i (by simpa using hc) (by simpa using hs) (by simpa using hw)
  | case2 => simp at hc
  | case3 => simp at hs
  | case4 => simp at hw

theorem twist_toList (mt : StateArray) : (twist mt).toList = twistList mt.toList := by
  have old : ∀ i, i < 624 → mt.toList[i]? = some (readWord mt (stateIndex i)) := fun i h => by
    rw [toList_getElem?, if_pos h]
  have len : mt.toList.length = 624 := by simp
  have lenA : (zipTwist mt.toList (mt.toList.drop 397)).length = 227 := by simp [zipTwist_length]
  have a : ∀ i, i < 227 → (zipTwist mt.toList (mt.toList.drop 397))[i]? = some (readWord (twist mt) (stateIndex i)) := by
    intro i h
    rw [readWord_twist_low mt h]
    exact zipTwist_getElem? _ _ i (old i (by omega)) (old (i + 1) (by omega))
      (by rw [List.getElem?_drop, Nat.add_comm]; exact old (i + 397) (by omega))
  generalize hA : zipTwist mt.toList (mt.toList.drop 397) = A at a lenA
  have lenB : (zipTwist (mt.toList.drop 227) A).length = 227 := by simp [zipTwist_length, lenA]
  have b : ∀ i, i < 227 → (zipTwist (mt.toList.drop 227) A)[i]? = some (readWord (twist mt) (stateIndex (i + 227))) := by
    intro i h
    rw [readWord_twist_high mt (by omega) (by omega), Nat.add_sub_cancel]
    exact zipTwist_getElem? _ _ i (by rw [List.getElem?_drop, Nat.add_comm]; exact old (i + 227) (by omega))
      (by rw [List.getElem?_drop, Nat.add_comm, Nat.add_right_comm]; exact old (i + 227 + 1) (by omega)) (a i h)
  generalize hB : zipTwist (mt.toList.drop 227) A = B at b lenB
  have front : ∀ i, i < 170 → (mt.toList.drop 454 ++ A.take 1)[i]? = some (readWord mt (stateIndex (i + 454))) := by
    intro i h
    rw [List.getElem?_append_left (by simp; omega), List.getElem?_drop, Nat.add_comm]
    exact old (i + 454) (by omega)
  have back : (mt.toList.drop 454 ++ A.take 1)[170]? = some (readWord (twist mt) (stateIndex 0)) := by
    rw [List.getElem?_append_right (by simp ), ← a 0 (by omega)]
    simp 
  have lenC : (zipTwist (mt.toList.drop 454 ++ A.take 1) B).length = 170 := by
    simp [zipTwist_length, lenA, lenB]
  have c : ∀ i, i < 170 →
      (zipTwist (mt.toList.drop 454 ++ A.take 1) B)[i]? = some (readWord (twist mt) (stateIndex (i + 454))) := by
    intro i h
    by_cases e : i = 169
    · subst e
      rw [readWord_twist_last]
      exact zipTwist_getElem? _ _ 169 (front 169 (by omega)) back (b 169 (by omega))
    · rw [readWord_twist_high mt (by omega) (by omega), show i + 454 - 227 = i + 227 by omega]
      exact zipTwist_getElem? _ _ i (front i h)
        (by rw [front (i + 1) (by omega), Nat.add_right_comm]) (b i (by omega))
  simp only [twistList, hA, hB]
  apply List.ext_getElem?
  intro i
  rw [toList_getElem?]
  by_cases h1 : i < 227
  · rw [if_pos (by omega), List.getElem?_append_left (by omega), a i h1]
  · by_cases h2 : i < 454
    · rw [if_pos (by omega), List.getElem?_append_right (by omega), List.getElem?_append_left (by omega), lenA,
        b (i - 227) (by omega), show i - 227 + 227 = i by omega]
    · rw [List.getElem?_append_right (by omega), List.getElem?_append_right (by omega), lenA, lenB]
      by_cases h3 : i < 624
      · rw [if_pos h3, c (i - 227 - 227) (by omega), show i - 227 - 227 + 454 = i by omega]
      · rw [if_neg h3, List.getElem?_eq_none (by omega)]

/-- A word of an expanded array, as the kernel computes it. -/
theorem readWord_expand_list (seed : Word) (mt : StateArray) {i : Nat} (h : i < 624) :
    some (readWord (expand seed mt) (stateIndex i)) = (expandList seed)[i]? := by
  rw [← expand_toList seed mt, toList_getElem?, if_pos h]

/-- A word of a twisted array, as the kernel computes it. -/
theorem readWord_twist_list (mt : StateArray) {i : Nat} (h : i < 624) :
    some (readWord (twist mt) (stateIndex i)) = (twistList mt.toList)[i]? := by
  rw [← twist_toList mt, toList_getElem?, if_pos h]

/-! The sequence of R104 exists for every state array, so that no claim about one is empty. -/

/-- The word after 624 given ones (R104). -/
def seqSucc (x0 x1 x397 : Word) : Word := x397 ^^^ mixBits ((x0 &&& 0x80000000) ||| (x1 &&& 0x7FFFFFFF))

/-- The sequence that begins with the given words. -/
def sequenceFrom (first : Nat → Word) (k : Nat) : Word :=
  if k < 624 then first k
  else seqSucc (sequenceFrom first (k - 624)) (sequenceFrom first (k - 623)) (sequenceFrom first (k - 227))
termination_by k

theorem exists_twistSequence (first : Nat → Word) :
    ∃ X, isTwistSequence X ∧ ∀ i, i < 624 → X i = first i := by
  refine ⟨sequenceFrom first, fun k => ?_, fun i h => ?_⟩
  · rw [sequenceFrom, if_neg (by omega), show k + 624 - 624 = k by omega, show k + 624 - 623 = k + 1 by omega,
      show k + 624 - 227 = k + 397 by omega]
    rfl
  · rw [sequenceFrom, if_pos h]

/-- Every state array begins a sequence. -/
theorem exists_sequence_of_array (mt : StateArray) : ∃ X, isTwistSequence X ∧ beginsWith X mt := by
  obtain ⟨X, h, h'⟩ := exists_twistSequence fun i => readWord mt (stateIndex i)
  exact ⟨X, h, fun i hi => by rw [h' i hi, readWord_stateIndex mt hi]⟩

/-- Every seed begins a sequence. -/
theorem exists_sequence_of_seed (seed : Word) : ∃ X, isTwistSequence X ∧ beginsWithSeed X seed := by
  obtain ⟨X, h, h'⟩ := exists_twistSequence (expandWord seed)
  refine ⟨X, h, h' 0 (by omega), fun i hi => ?_⟩
  rw [h' (i + 1) (by omega), h' i (by omega)]
  rfl

end Sys2Proof.Machine
end

