-- ==== Sys2Proof/Laws/Bus.lean ====
section
/-! SUPPORT. What the bytes of a word are on the bus of an adapter (20_memory.md R52), for every byte order. -/

namespace Sys2Proof.Machine

theorem laneByte_laneWord_self (l : Fin 4) (b : Byte) : laneByte l (laneWord l b) = b := by
  ext i hi
  have : 8 * l.val + i < 32 := by omega
  simp [laneByte, laneWord, this, hi]

theorem laneByte_laneWord_of_ne {l m : Fin 4} (h : l ≠ m) (b : Byte) : laneByte l (laneWord m b) = 0 := by
  ext i hi
  have h' : l.val ≠ m.val := fun e => h (Fin.ext e)
  rcases Nat.lt_or_gt_of_ne h' with lt | gt
  · have : 8 * l.val + i < 8 * m.val := by omega
    simp [laneByte, laneWord, this]
  · have : b.getLsbD (8 * l.val + i - 8 * m.val) = false := BitVec.getLsbD_of_ge _ _ (by omega)
    simp [laneByte, laneWord, this]

theorem laneByte_or (l : Fin 4) (v w : Word) : laneByte l (v ||| w) = laneByte l v ||| laneByte l w := by
  simp [laneByte, BitVec.extractLsb'_or]

/-- Words with the same four bytes are equal. -/
theorem eq_of_laneBytes {v w : Word} (h : ∀ l, laneByte l v = laneByte l w) : v = w := by
  ext i hi
  have := congrArg (fun b => b.getLsbD (i % 8)) (h ⟨i / 8, by omega⟩)
  have e : 8 * (i / 8) + i % 8 = i := by omega
  simpa [laneByte, e, BitVec.getLsbD_eq_getElem hi, Nat.mod_lt] using this

/-- Every byte of a word stands at some offset. -/
theorem lanes_cover (o : BusByteOrder) (l : Fin 4) :
    l = o.lanes[0] ∨ l = o.lanes[1] ∨ l = o.lanes[2] ∨ l = o.lanes[3] := by
  have card := List.toFinset_card_of_nodup o.eachOnce
  have all : o.lanes.toList.toFinset = Finset.univ := by
    apply Finset.eq_univ_of_card
    simp [card]
  have mem : l ∈ o.lanes.toList := by rw [← List.mem_toFinset, all]; exact Finset.mem_univ l
  obtain ⟨k, hk, e⟩ := List.mem_iff_getElem.mp mem
  have hk : k < 4 := by simpa using hk
  have : k = 0 ∨ k = 1 ∨ k = 2 ∨ k = 3 := by omega
  rcases this with rfl | rfl | rfl | rfl <;> simp_all

/-- No byte of a word stands at two offsets. -/
theorem lanes_ne (o : BusByteOrder) {i j : Nat} (hi : i < 4) (hj : j < 4) (h : i ≠ j) : o.lanes[i] ≠ o.lanes[j] := by
  intro e
  apply h
  exact (List.Nodup.getElem_inj_iff (hi := by simpa) (hj := by simpa) o.eachOnce).mp (by simpa using e)

/-- Each byte of the bus lands in the lane of its offset. -/
theorem laneByte_fromBus (o : BusByteOrder) (bytes : BusWord) {k : Nat} (hk : k < 4) :
    laneByte o.lanes[k] (fromBus o bytes) = bytes[k] := by
  simp only [fromBus, laneByte_or]
  have ne := fun j (hj : j < 4) (h : k ≠ j) => laneByte_laneWord_of_ne (lanes_ne o hk hj h)
  have : k = 0 ∨ k = 1 ∨ k = 2 ∨ k = 3 := by omega
  rcases this with rfl | rfl | rfl | rfl
  · simp [laneByte_laneWord_self, ne 1, ne 2, ne 3]
  · simp [laneByte_laneWord_self, ne 0, ne 2, ne 3]
  · simp [laneByte_laneWord_self, ne 1, ne 0, ne 3]
  · simp [laneByte_laneWord_self, ne 1, ne 2, ne 0]

/-- Each offset of the bus carries the byte of its lane. -/
theorem toBus_getElem (o : BusByteOrder) (w : Word) {k : Nat} (hk : k < 4) :
    (toBus o w)[k] = laneByte o.lanes[k] w := by
  have : k = 0 ∨ k = 1 ∨ k = 2 ∨ k = 3 := by omega
  rcases this with rfl | rfl | rfl | rfl <;> rfl

end Sys2Proof.Machine
end

