-- ==== Sys2Proof/Laws/State.lean ====
section
/-! SUPPORT. What each update of the state does to each field, so that no proof unfolds a record update. -/

namespace Sys2Proof.Machine

/-! `raised`: ERR, CAUSE and the response; LENGTH also closes the injection (60_exceptions.md R208). -/

@[simp] theorem raised_mt (e : ErrorCode) (s : State) : (raised e s).mt = s.mt := by cases e <;> rfl
@[simp] theorem raised_index (e : ErrorCode) (s : State) : (raised e s).index = s.index := by cases e <;> rfl
@[simp] theorem raised_valid (e : ErrorCode) (s : State) : (raised e s).valid = s.valid := by cases e <;> rfl
@[simp] theorem raised_inj (e : ErrorCode) (s : State) :
    (raised e s).inj = if e = .length then false else s.inj := by cases e <;> rfl
@[simp] theorem raised_injcnt (e : ErrorCode) (s : State) :
    (raised e s).injcnt = if e = .length then 0 else s.injcnt := by cases e <;> rfl
@[simp] theorem raised_err (e : ErrorCode) (s : State) : (raised e s).err = true := rfl
@[simp] theorem raised_cause (e : ErrorCode) (s : State) : (raised e s).cause = errorCode e := rfl
@[simp] theorem raised_rspData (e : ErrorCode) (s : State) : (raised e s).rspData = 0 := rfl
@[simp] theorem raised_rspErr (e : ErrorCode) (s : State) : (raised e s).rspErr = errorCode e := rfl
@[simp] theorem raised_phase (e : ErrorCode) (s : State) : (raised e s).phase = s.phase := by cases e <;> rfl
@[simp] theorem raised_taken (e : ErrorCode) (s : State) : (raised e s).taken = s.taken := by cases e <;> rfl
@[simp] theorem raised_inputs (e : ErrorCode) (s : State) : (raised e s).inputs = s.inputs := by cases e <;> rfl
@[simp] theorem raised_lat (e : ErrorCode) (s : State) : (raised e s).lat = s.lat := by cases e <;> rfl
@[simp] theorem raised_edges (e : ErrorCode) (s : State) : (raised e s).edges = s.edges := by cases e <;> rfl

/-! `pastSample`: only the samples and the edge count move. -/

@[simp] theorem pastSample_mt (s : State) : (pastSample s).mt = s.mt := rfl
@[simp] theorem pastSample_index (s : State) : (pastSample s).index = s.index := rfl
@[simp] theorem pastSample_valid (s : State) : (pastSample s).valid = s.valid := rfl
@[simp] theorem pastSample_inj (s : State) : (pastSample s).inj = s.inj := rfl
@[simp] theorem pastSample_injcnt (s : State) : (pastSample s).injcnt = s.injcnt := rfl
@[simp] theorem pastSample_err (s : State) : (pastSample s).err = s.err := rfl
@[simp] theorem pastSample_cause (s : State) : (pastSample s).cause = s.cause := rfl
@[simp] theorem pastSample_rspData (s : State) : (pastSample s).rspData = s.rspData := rfl
@[simp] theorem pastSample_rspErr (s : State) : (pastSample s).rspErr = s.rspErr := rfl
@[simp] theorem pastSample_phase (s : State) : (pastSample s).phase = s.phase := rfl
@[simp] theorem pastSample_taken (s : State) : (pastSample s).taken = s.taken := rfl
@[simp] theorem pastSample_inputs (s : State) : (pastSample s).inputs = s.inputs.tail := rfl
@[simp] theorem pastSample_lat (s : State) : (pastSample s).lat = s.lat := rfl
@[simp] theorem pastSample_edges (s : State) : (pastSample s).edges = s.edges + 1 := rfl

/-! `resetEdge`: every register at its reset value (70_reset_and_hazards.md R240). -/

@[simp] theorem resetEdge_mt (s : State) : (resetEdge s).mt = Config.resetMt s.edges := rfl
@[simp] theorem resetEdge_index (s : State) : (resetEdge s).index = 624 := rfl
@[simp] theorem resetEdge_valid (s : State) : (resetEdge s).valid = false := rfl
@[simp] theorem resetEdge_inj (s : State) : (resetEdge s).inj = false := rfl
@[simp] theorem resetEdge_injcnt (s : State) : (resetEdge s).injcnt = 0 := rfl
@[simp] theorem resetEdge_err (s : State) : (resetEdge s).err = false := rfl
@[simp] theorem resetEdge_cause (s : State) : (resetEdge s).cause = 0 := rfl
@[simp] theorem resetEdge_rspData (s : State) : (resetEdge s).rspData = 0 := rfl
@[simp] theorem resetEdge_rspErr (s : State) : (resetEdge s).rspErr = 0 := rfl
@[simp] theorem resetEdge_phase (s : State) : (resetEdge s).phase = .inReset := rfl
@[simp] theorem resetEdge_taken (s : State) : (resetEdge s).taken = [] := rfl
@[simp] theorem resetEdge_inputs (s : State) : (resetEdge s).inputs = s.inputs := rfl
@[simp] theorem resetEdge_lat (s : State) : (resetEdge s).lat = s.lat := rfl
@[simp] theorem resetEdge_edges (s : State) : (resetEdge s).edges = s.edges := rfl

/-! `takeResponse`: the handshake and the host's record. -/

@[simp] theorem takeResponse_mt (s : State) : (takeResponse s).mt = s.mt := rfl
@[simp] theorem takeResponse_index (s : State) : (takeResponse s).index = s.index := rfl
@[simp] theorem takeResponse_valid (s : State) : (takeResponse s).valid = s.valid := rfl
@[simp] theorem takeResponse_inj (s : State) : (takeResponse s).inj = s.inj := rfl
@[simp] theorem takeResponse_injcnt (s : State) : (takeResponse s).injcnt = s.injcnt := rfl
@[simp] theorem takeResponse_err (s : State) : (takeResponse s).err = s.err := rfl
@[simp] theorem takeResponse_cause (s : State) : (takeResponse s).cause = s.cause := rfl
@[simp] theorem takeResponse_rspData (s : State) : (takeResponse s).rspData = s.rspData := rfl
@[simp] theorem takeResponse_rspErr (s : State) : (takeResponse s).rspErr = s.rspErr := rfl
@[simp] theorem takeResponse_phase (s : State) : (takeResponse s).phase = .ready := rfl
@[simp] theorem takeResponse_taken (s : State) : (takeResponse s).taken = s.taken ++ [s.response] := rfl
@[simp] theorem takeResponse_inputs (s : State) : (takeResponse s).inputs = s.inputs := rfl
@[simp] theorem takeResponse_lat (s : State) : (takeResponse s).lat = s.lat := rfl
@[simp] theorem takeResponse_edges (s : State) : (takeResponse s).edges = s.edges := rfl

end Sys2Proof.Machine
end

