-- ==== Sys2Proof/Laws/Ops.lean ====
section
/-! SUPPORT. One lemma for each shared operation that says everything it can do when it answers a next state; proofs
cite these and unfold nothing. -/

namespace Sys2Proof.Machine

/-- `respond` always goes on: the response registers, nothing else (30_encoding.md R73). -/
theorem respond_next {v : Word} {s t : State} (h : respond v s = .next t) :
    t = { s with rspData := v, rspErr := okCode } := by
  simpa [respond] using h.symm

/-- `raise` always goes on, with the state of 60_exceptions.md R208. -/
theorem raiseError_next {e : ErrorCode} {s t : State} (h : raiseError e s = .next t) : t = raised e s := by
  simpa [raiseError] using h.symm

/-- The end of NEXT (40_generator.md R106). -/
theorem extractAt_next {mt : StateArray} {i : Fin 624} {s t : State} (h : extractAt mt i s = .next t) :
    t = { s with mt := mt, index := BitVec.ofNat 10 i.val + 1, rspData := temper (readWord mt i), rspErr := okCode } :=
  respond_next h

/-- A command word is a command with its meaning, or it raises ILLEGAL (60_exceptions.md R202). -/
theorem transact_cases (w data : Word) (s : State) :
    (∃ i, decode w data = .ok i ∧ transact w data s = exec i s) ∨
      (∃ r, decode w data = .error r ∧ transact w data s = .next (raised .illegal s)) := by
  cases h : decode w data with
  | ok i => exact .inl ⟨i, rfl, by simp [transact, h]⟩
  | error r => exact .inr ⟨r, rfl, by simp [transact, h, raiseError]⟩

/-- An accepting edge: the command's own next state, with the handshake waiting `LAT(cmd)` (30_encoding.md R73). -/
theorem acceptCommand_next {w data : Word} {s t : State} (h : acceptCommand w data s = .next t) :
    ∃ u, transact w data s = .next u ∧ t = { u with phase := .executing (wordLatency w data s) } := by
  unfold acceptCommand at h
  cases e : transact w data s with
  | next u => rw [e] at h; exact ⟨u, rfl, by simpa [respondIn] using h.symm⟩
  | fault f => rw [e] at h; cases h
  | refused r => rw [e] at h; cases h

/-- Everything an edge can do: reset, accept a command, take a response, or let the handshake wait with every register
as it was (30_encoding.md R71 to R73, 70_reset_and_hazards.md R240 to R244). -/
theorem clockEdge_next {p : PortIn} {s t : State} (h : clockEdge p s = .next t) :
    (p.rst = true ∧ t = resetEdge s) ∨
    (p.rst = false ∧ s.phase = .ready ∧ p.cmdValid = true ∧
      ∃ u, transact p.cmdWord p.cmdData s = .next u ∧
        t = { u with phase := .executing (wordLatency p.cmdWord p.cmdData s) }) ∨
    (p.rst = false ∧ s.phase = .responding ∧ p.rspReady = true ∧ t = takeResponse s) ∨
    (p.rst = false ∧ s.phase = .ready ∧ p.cmdValid = false ∧ t = s) ∨
    (p.rst = false ∧ s.phase = .responding ∧ p.rspReady = false ∧ t = s) ∨
    (p.rst = false ∧ s.phase = .inReset ∧ t = { s with phase := wakeIn s.lat.reset }) ∨
    (p.rst = false ∧ ∃ left, s.phase = .waking left ∧ t = { s with phase := wakeIn left }) ∨
    (p.rst = false ∧ ∃ left, s.phase = .executing left ∧ t = { s with phase := respondIn left }) := by
  unfold clockEdge at h
  cases hr : p.rst with
  | true => simp only [hr, if_true] at h; cases h; simp
  | false =>
    simp only [hr] at h
    cases hp : s.phase with
    | inReset => simp only [hp] at h; cases h; simp
    | waking left => simp only [hp] at h; cases h; simp
    | ready =>
      simp only [hp] at h
      cases hv : p.cmdValid with
      | true =>
        simp only [hv, if_true] at h
        obtain ⟨u, hu, ht⟩ := acceptCommand_next h
        simp [hu, ht]
      | false => simp only [hv] at h; cases h; simp
    | executing left => simp only [hp] at h; cases h; simp
    | responding =>
      simp only [hp] at h
      cases hv : p.rspReady with
      | true => simp only [hv, if_true] at h; cases h; simp
      | false => simp only [hv] at h; cases h; simp

/-- An edge goes on unless it accepts a command that stops. -/
theorem clockEdge_goes_on {p : PortIn} {s : State}
    (h : p.rst = false → s.phase = .ready → p.cmdValid = true → ∃ u, transact p.cmdWord p.cmdData s = .next u) :
    ∃ t, clockEdge p s = .next t := by
  unfold clockEdge
  cases hr : p.rst with
  | true => simp
  | false =>
    cases hp : s.phase with
    | inReset => simp
    | waking left => simp
    | ready =>
      cases hv : p.cmdValid with
      | true => obtain ⟨u, hu⟩ := h hr hp hv; simp [acceptCommand, hu]
      | false => simp
    | executing left => simp
    | responding => cases hv : p.rspReady <;> simp

/-- A command sequence, one command at a time. -/
theorem runCommands_cons {c : Word × Word} {cs : List (Word × Word)} {s t : State}
    (h : transact c.1 c.2 s = .next t) :
    runCommands (c :: cs) s = (runCommands cs t).map fun r => (r.1, t.response :: r.2) := by
  simp only [runCommands, h]
  cases runCommands cs t <;> rfl

/-- A command sequence in two parts. -/
theorem runCommands_append (as bs : List (Word × Word)) (s : State) :
    runCommands (as ++ bs) s =
      (runCommands as s).bind fun r => (runCommands bs r.1).map fun q => (q.1, r.2 ++ q.2) := by
  induction as generalizing s with
  | nil => cases h : runCommands bs s <;> simp [runCommands, h]
  | cons c cs ih =>
    cases h : transact c.1 c.2 s with
    | next t =>
      rw [List.cons_append, runCommands_cons h, runCommands_cons h, ih]
      cases h1 : runCommands cs t with
      | none => rfl
      | some r => cases h2 : runCommands bs r.1 <;> simp [h2]
    | fault f => simp [runCommands, h]
    | refused r => simp [runCommands, h]

/-- A step is one edge with the sampled pins. -/
theorem step_eq (s : State) : step s = clockEdge (sampledPins s) (pastSample s) := rfl

end Sys2Proof.Machine
end

