-- ==== Sys2Proof/Laws/Exec.lean ====
section
/-! SUPPORT. One inversion lemma for each command: everything it can do when it answers a next state. -/

namespace Sys2Proof.Machine

/-- The PEEK index is the number of its field (30_encoding.md R77). -/
@[simp] theorem peekIndex_eq (idx : BitVec 10) : peekIndex idx = idx.toNat := by
  simp [peekIndex]
  omega

/-- SEED has one outcome (40_generator.md R105). -/
theorem execSeed_next {v : Word} {s t : State} (h : execSeed v s = .next t) :
    t = { s with mt := expand v s.mt, index := 624, valid := true, inj := false, injcnt := 0, rspData := 0,
                 rspErr := okCode } := by
  unfold execSeed at h
  have := respond_next h
  exact this

/-- NEXT is refused, reads at the cursor, or twists first (40_generator.md R106). -/
theorem execNext_next {s t : State} (h : execNext s = .next t) :
    (s.valid = false ∧ t = raised .notReady s) ∨
    (s.valid = true ∧ ∃ lt : s.index.toNat < 624, t = { s with
      index := s.index + 1, rspData := temper (readWord s.mt ⟨s.index.toNat, lt⟩), rspErr := okCode }) ∨
    (s.valid = true ∧ 624 ≤ s.index.toNat ∧ t = { s with
      mt := twist s.mt, index := 1, rspData := temper (readWord (twist s.mt) (stateIndex 0)), rspErr := okCode }) := by
  unfold execNext at h
  by_cases hv : s.valid = false
  · rw [if_pos hv] at h; exact .inl ⟨hv, raiseError_next h⟩
  · rw [if_neg hv] at h
    have hv : s.valid = true := by simpa using hv
    by_cases lt : s.index.toNat < 624
    · rw [dif_pos lt] at h
      exact .inr (.inl ⟨hv, lt, by simpa using extractAt_next h⟩)
    · rw [dif_neg lt] at h
      exact .inr (.inr ⟨hv, by omega, by simpa using extractAt_next h⟩)

/-- TEMPER has one outcome (40_generator.md R107). -/
theorem execTemper_next {v : Word} {s t : State} (h : execTemper v s = .next t) :
    t = { s with rspData := temper v, rspErr := okCode } := respond_next h

/-- UNTEMPER has one outcome (41_recoverer.md R142). -/
theorem execUntemper_next {v : Word} {s t : State} (h : execUntemper v s = .next t) :
    t = { s with rspData := untemper v, rspErr := okCode } := respond_next h

/-- INJ_START has one outcome (41_recoverer.md R143). -/
theorem execInjStart_next {s t : State} (h : execInjStart s = .next t) :
    t = { s with inj := true, valid := false, injcnt := 0, rspData := 0, rspErr := okCode } := respond_next h

/-- INJ_WORD is refused, closes the injection, or writes one word (41_recoverer.md R144). -/
theorem execInjWord_next {u : Bool} {d : Word} {s t : State} (h : execInjWord u d s = .next t) :
    (s.inj = false ∧ t = raised .sequence s) ∨
    (s.inj = true ∧ s.injcnt = 624#10 ∧ t = raised .length s) ∨
    (s.inj = true ∧ ∃ lt : s.injcnt.toNat < 624, t = { s with
      mt := writeWord s.mt ⟨s.injcnt.toNat, lt⟩ (injectedWord u d), injcnt := s.injcnt + 1,
      rspData := injectedWord u d, rspErr := okCode }) := by
  unfold execInjWord at h
  by_cases hi : s.inj = false
  · rw [if_pos hi] at h; exact .inl ⟨hi, raiseError_next h⟩
  · rw [if_neg hi] at h
    have hi : s.inj = true := by simpa using hi
    by_cases full : s.injcnt = 624#10
    · rw [if_pos full] at h
      exact .inr (.inl ⟨hi, full, raiseError_next h⟩)
    · rw [if_neg full] at h
      by_cases lt : s.injcnt.toNat < 624
      · rw [dif_pos lt] at h
        exact .inr (.inr ⟨hi, lt, respond_next h⟩)
      · rw [dif_neg lt] at h
        cases h

/-- INJ_COMMIT is refused, closes the injection, or arms the state (41_recoverer.md R145). -/
theorem execInjCommit_next {s t : State} (h : execInjCommit s = .next t) :
    (s.inj = false ∧ t = raised .sequence s) ∨
    (s.inj = true ∧ s.injcnt ≠ 624#10 ∧ t = raised .length s) ∨
    (s.inj = true ∧ s.injcnt = 624#10 ∧ t = { s with
      inj := false, injcnt := 0, valid := true, index := 624, rspData := 0, rspErr := okCode }) := by
  unfold execInjCommit at h
  by_cases hi : s.inj = false
  · rw [if_pos hi] at h; exact .inl ⟨hi, raiseError_next h⟩
  · rw [if_neg hi] at h
    have hi : s.inj = true := by simpa using hi
    by_cases full : s.injcnt = 624#10
    · rw [if_neg (by simp [full])] at h
      exact .inr (.inr ⟨hi, full, respond_next h⟩)
    · rw [if_pos full] at h
      exact .inr (.inl ⟨hi, full, raiseError_next h⟩)

/-- PEEK is out of range, refused, or reads one word (42_readback.md R170). -/
theorem execPeek_next {idx : BitVec 10} {s t : State} (h : execPeek idx s = .next t) :
    (624 ≤ idx.toNat ∧ t = raised .range s) ∨
    (idx.toNat < 624 ∧ s.valid = false ∧ t = raised .notReady s) ∨
    (s.valid = true ∧ ∃ lt : idx.toNat < 624, t = { s with
      rspData := readWord s.mt ⟨idx.toNat, lt⟩, rspErr := okCode }) := by
  simp only [execPeek, peekIndex_eq] at h
  by_cases lt : idx.toNat < 624
  · rw [dif_pos lt] at h
    by_cases hv : s.valid = false
    · rw [if_pos hv] at h; exact .inr (.inl ⟨lt, hv, raiseError_next h⟩)
    · rw [if_neg hv] at h; exact .inr (.inr ⟨by simpa using hv, lt, respond_next h⟩)
  · rw [dif_neg lt] at h
    exact .inl ⟨by omega, raiseError_next h⟩

/-- The cursor and the injection count do not wrap below 624 (10_state.md R22, R26). -/
theorem toNat_succ_of_lt {x : BitVec 10} (h : x.toNat < 624) : (x + 1).toNat = x.toNat + 1 := by
  rw [BitVec.toNat_add, show (1 : BitVec 10).toNat = 1 from rfl, Nat.mod_eq_of_lt (by omega)]

end Sys2Proof.Machine
end

