-- ==== Sys2Proof/Laws/PerInstr.lean ====
section
/-! SUPPORT. Laws that hold of every command, one lemma per constructor of `Instr`. -/

/-- The encoder's word passes the legality test of 30_encoding.md R78 and carries the command's own opcode (R75). -/
def Sys2Proof.Laws.LegalEncoding.opcode : Sys2Proof.Instr → Nat
  | .seed _ => 1
  | .next => 2
  | .temper _ => 3
  | .untemper _ => 4
  | .injStart => 5
  | .injWord _ _ => 6
  | .injCommit => 7
  | .peek _ => 8

/-- What the law says of one command. -/
def Sys2Proof.Laws.LegalEncoding.Statement (i : Sys2Proof.Instr) : Prop :=
  Sys2Proof.Machine.legalWord (Sys2Proof.encodeWord i) ∧
    (Sys2Proof.encodeWord i).toNat % 16 = Sys2Proof.Laws.LegalEncoding.opcode i

namespace Sys2Proof.Laws.LegalEncoding

open Sys2Proof.Machine (legalWord)

/-- The number of a PEEK word. -/
theorem peekWord_toNat (idx : BitVec 10) : (encodeWord (.peek idx)).toNat = idx.toNat * 65536 + 8 := by
  have h := idx.isLt
  have shifted : (idx.setWidth 32 <<< 16 : Word).toNat = idx.toNat <<< 16 := by
    simp [Nat.shiftLeft_eq]
    omega
  rw [show encodeWord (.peek idx) = (idx.setWidth 32 <<< 16) ||| 0x00000008 from rfl, BitVec.toNat_or, shifted,
    show (0x00000008 : Word).toNat = 8 from rfl, ← Nat.shiftLeft_add_eq_or_of_lt (by decide), Nat.shiftLeft_eq]

theorem seed (data : Word) : Statement (.seed data) := by simp [Statement, legalWord, encodeWord, opcode]
theorem next : Statement .next := by simp [Statement, legalWord, encodeWord, opcode]
theorem temper (data : Word) : Statement (.temper data) := by simp [Statement, legalWord, encodeWord, opcode]
theorem untemper (data : Word) : Statement (.untemper data) := by simp [Statement, legalWord, encodeWord, opcode]
theorem injStart : Statement .injStart := by simp [Statement, legalWord, encodeWord, opcode]
theorem injWord (u : Bool) (data : Word) : Statement (.injWord u data) := by
  cases u <;> simp [Statement, legalWord, encodeWord, opcode]
theorem injCommit : Statement .injCommit := by simp [Statement, legalWord, encodeWord, opcode]
theorem peek (idx : BitVec 10) : Statement (.peek idx) := by
  have h := idx.isLt
  rw [Statement, legalWord, peekWord_toNat, opcode]
  omega

end Sys2Proof.Laws.LegalEncoding
end

