-- ==== Sys2Proof/Laws/System.lean ====
section
/-! SUPPORT. What one edge of one engine of a system can do (60_exceptions.md R215). -/

namespace Sys2Proof.Machine

/-- An edge of a system is a step of its engine and a write of that engine's state. -/
theorem systemStep_eq_some {nEngines : EngineCount} {k : Fin nEngines.val} {sys sys' : EngineSystem nEngines} :
    systemStep k sys = some sys' ↔ ∃ t, step sys[k.val] = .next t ∧ sys' = sys.set k.val t := by
  unfold systemStep
  cases step sys[k.val] <;> simp [eq_comm]

end Sys2Proof.Machine
end

