-- ==== Sys2Proof/Tests/Slice0.lean ====
section
/-! SUPPORT. Tests. Every expected result is the spec's own: 95_test_vectors.md, 30_encoding.md R84, or the rule a test
names. After them, for each statement with hypotheses, a state and operands that meet the hypotheses together. -/

namespace Sys2Proof.Tests

open Sys2Proof.Machine

/-- A state with every field written out: zero array, the registers of reset, ready for a command, every OPEN latency
at its least. -/
def zeroState : State where
  mt := Vector.replicate 624 0
  index := 624
  valid := false
  inj := false
  injcnt := 0
  err := false
  cause := 0
  rspData := 0
  rspErr := 0
  phase := .ready
  taken := []
  inputs := []
  lat := ⟨0, 0, 0, 0, 0, 0, 0, 0, 0, 0, 0⟩
  edges := 0

/-- A usable state: `VALID` = 1. -/
def usable : State := { zeroState with valid := true }

/-- An open injection with k words written. -/
def injecting (k : BitVec 10) : State := { zeroState with inj := true, injcnt := k }

/-- STATUS after an outcome. -/
def statusAfter (o : Host.Outcome State Fault Refusal) : Option Word := (nextState o).map statusWord

/-- The response of an outcome. -/
def responseOf (o : Host.Outcome State Fault Refusal) : Option Response := (nextState o).map State.response

/-! ## WellFormed: one ill-formed line for each check -/

theorem test_wf_seed_too_wide : (AsmLine.seed 0x100000000).wellFormed = false := by decide
theorem test_wf_temper_too_wide : (AsmLine.temper 0x100000000).wellFormed = false := by decide
theorem test_wf_untemper_too_wide : (AsmLine.untemper 0x100000000).wellFormed = false := by decide
theorem test_wf_injWord_too_wide : (AsmLine.injWord 0x100000000).wellFormed = false := by decide
theorem test_wf_injWordU_too_wide : (AsmLine.injWordU 0x100000000).wellFormed = false := by decide
theorem test_wf_newGen_too_wide : (AsmLine.newGen 0x100000000).wellFormed = false := by decide
theorem test_wf_peek_too_wide : (AsmLine.peek 1024).wellFormed = false := by decide
theorem test_wf_load_wrong_count : (AsmLine.load [1, 2, 3]).wellFormed = false := by decide
theorem test_wf_clone_wrong_count : (AsmLine.clone []).wellFormed = false := by decide
theorem test_wf_load_word_too_wide : fitsArray (0x100000000 :: List.replicate 623 0) = false := by decide +kernel
theorem test_wf_clone_full_count : (AsmLine.clone (List.replicate 624 0xFFFFFFFF)).wellFormed = true := by
  decide +kernel
theorem test_wf_boundary : (AsmLine.seed 0xFFFFFFFF).wellFormed = true ∧ (AsmLine.peek 1023).wellFormed = true := by
  decide

/-! ## Decoding: words written out from the table of 30_encoding.md R82 and from R84; the illegal words of
95_test_vectors.md section 2.8 -/

theorem test_decode_seed : decode 0b00000000000000000000000000000001 5489 = .ok (.seed 5489) := by decide
theorem test_decode_next : decode 0b00000000000000000000000000000010 7 = .ok .next := by decide
theorem test_decode_temper : decode 0b00000000000000000000000000000011 12345 = .ok (.temper 12345) := by decide
theorem test_decode_untemper : decode 0b00000000000000000000000000000100 12345 = .ok (.untemper 12345) := by decide
theorem test_decode_injStart : decode 0b00000000000000000000000000000101 0 = .ok .injStart := by decide
theorem test_decode_injWord : decode 0b00000000000000000000000000000110 5 = .ok (.injWord false 5) := by decide
theorem test_decode_injWordU : decode 0b00000000000000000000000000010110 5 = .ok (.injWord true 5) := by decide
theorem test_decode_injCommit : decode 0b00000000000000000000000000000111 0 = .ok .injCommit := by decide
theorem test_decode_peek : decode 0b00000010011011110000000000001000 0 = .ok (.peek 623) := by decide
theorem test_decode_peek_1023 : decode 0x03FF0008 0 = .ok (.peek 1023) := by decide
theorem test_decode_illegal :
    [0x00000000, 0x00000009, 0x0000000F, 0x00000012, 0x00010001, 0x00000020, 0x00000021, 0x04000002, 0x80000001].map
      (decodeTableWord 32) = List.replicate 9 none := by decide
theorem test_decode_table_row_with_data : decodeTableWord 64 0x0000157100000001 = some (.seed 5489) := by decide
theorem test_encode_peek_700 : encode (.peek 700) = (0x02BC0008, 0) := by decide

/-! ## The algorithm: 95_test_vectors.md V-TM, V-UT, V-SD, V-TW -/

theorem test_temper_vectors :
    [0x1, 0x0, 0x2, 0x80000000, 0xFFFFFFFF, 12345, 55453292, 0x12345678, 0xDEADBEEF, 0x9D2C5680, 405233749].map temper =
      [0x00400091, 0x0, 0x2, 0x88102204, 0x6FE01BF8, 55453292, 2343450947, 0x2B7E4A2D, 0xE016575D, 0xEB93CDEE,
        12345] := by decide
theorem test_untemper_vectors :
    [0x0, 0x1, 0x2, 0x80000000, 0xFFFFFFFF, 12345, 55453292, 0x12345678, 0xDEADBEEF, 0x9D2C5680, 405233749].map
      untemper =
      [0x0, 0x102244C9, 0x2, 0x80102204, 0x12DD9BB3, 405233749, 12345, 0x32500A74, 0x8F3A6C09, 0x35C6CD92,
        990249116] := by decide

/-- V-SD1. -/
theorem test_expand_seed0 : [1, 2, 396, 397, 623].map ((expandList 0)[·]?) =
    [some 0x00000001, some 0x6C078967, some 0x3C652740, some 0x08A9BDCD, some 0x6B1A1930] := by decide +kernel
/-- V-SD5: the multiply wraps. -/
theorem test_expand_allOnes : [1, 397, 623].map ((expandList 0xFFFFFFFF)[·]?) =
    [some 0x4FE1DA6D, some 0x5DD0117C, some 0xCB76E730] := by decide +kernel
/-- V-TW1: word 227 and word 623 tell the in-place order from a copy (V-TW4). -/
theorem test_twist_seed0 : [0, 1, 226, 227, 622, 623].map ((twistList (expandList 0))[·]?) =
    [some 0x91A10D12, some 0x412EEC03, some 0xA95BF90A, some 0x00D781B0, some 0x9DE1EA56, some 0x6405B6D2] := by
  decide +kernel
/-- V-TW5: one odd word. -/
theorem test_twist_odd : [0, 1, 227, 396, 454, 623].map ((twistList (0 :: 1 :: List.replicate 622 0))[·]?) =
    [some 0x9908B0DF, some 0, some 0x9908B0DF, some 0, some 0x9908B0DF, some 0x958CE8B0] := by decide +kernel
/-- V-TW6: bit 31 of word 0. -/
theorem test_twist_even : [0, 227, 454, 623].map ((twistList (0x80000000 :: List.replicate 623 0))[·]?) =
    [some 0x40000000, some 0x40000000, some 0x40000000, some 0x20000000] := by decide +kernel

/-- The lists of the tests above are the words of the arrays. -/
theorem test_twist_seed0_array (mt : StateArray) : readWord (twist (expand 0 mt)) (stateIndex 227) = 0x00D781B0 := by
  have h := readWord_twist_list (expand 0 mt) (i := 227) (by omega)
  rw [expand_toList, show (twistList (expandList 0))[227]? = some 0x00D781B0 by decide +kernel] at h
  simpa using h

/-! ## Commands: 95_test_vectors.md sections 2.3 to 2.7 and 3 -/

/-- P1, V-SD: STATUS after SEED from reset. -/
theorem test_seed_status : statusAfter (exec (.seed 0) zeroState) = some 0x00027001 := by decide
/-- P4: `SEED 5489; PEEK 1`, the word before any twist. -/
theorem test_seed_word (mt : StateArray) : readWord (expand 5489 mt) (stateIndex 1) = 0x4D98EE96 := by
  rw [readWord_expand 5489 mt (by omega)]
  decide
/-- V-NX6: NEXT straight after reset. -/
theorem test_next_notReady : responseOf (exec .next zeroState) = some ⟨0, 2⟩ ∧
    statusAfter (exec .next zeroState) = some 0x00027024 := by decide
/-- V-NX1, P1: `SEED 0; NEXT` responds 2357136044 and leaves STATUS 0x00000101. -/
theorem test_next_seed0 (s t : State) (ht : exec (.seed 0) s = .next t) (he : s.err = false) (hc : s.cause = 0) :
    responseOf (exec .next t) = some ⟨2357136044, 0⟩ ∧ statusAfter (exec .next t) = some 0x00000101 := by
  have word : readWord (twist (expand 0 s.mt)) (stateIndex 0) = 0x91A10D12 := by
    have h := readWord_twist_list (expand 0 s.mt) (i := 0) (by omega)
    rw [expand_toList, show (twistList (expandList 0))[0]? = some 0x91A10D12 by decide +kernel] at h
    simpa using h
  have run : exec .next t = extractAt (twist (expand 0 s.mt)) (stateIndex 0) t := by
    rw [execSeed_next ht]
    rfl
  rw [run, execSeed_next ht]
  simp only [extractAt, word, respond, responseOf, statusAfter, nextState, Option.map, State.response, statusWord,
    he, hc]
  decide
/-- V-TM6 and section 2.1: TEMPER straight after reset. -/
theorem test_temper : responseOf (exec (.temper 12345) zeroState) = some ⟨55453292, 0⟩ ∧
    statusAfter (exec (.temper 12345) zeroState) = some 0x00027000 := by decide
/-- V-UT7. -/
theorem test_untemper : responseOf (exec (.untemper 55453292) zeroState) = some ⟨12345, 0⟩ := by decide
/-- V-IJ1. -/
theorem test_injStart : statusAfter (exec .injStart zeroState) = some 0x00027002 := by decide
/-- V-IJ2. -/
theorem test_injWord : responseOf (exec (.injWord true 55453292) (injecting 0)) = some ⟨12345, 0⟩ ∧
    statusAfter (exec (.injWord true 55453292) (injecting 0)) = some 0x00067002 := by decide
/-- V-IJ4: the 625th word. -/
theorem test_injWord_length : responseOf (exec (.injWord false 0) (injecting 624)) = some ⟨0, 4⟩ ∧
    statusAfter (exec (.injWord false 0) (injecting 624)) = some 0x00027044 := by decide
/-- V-IJ6. -/
theorem test_injCommit : statusAfter (exec .injCommit (injecting 624)) = some 0x00027001 := by decide
/-- V-IJ5 and V-IJ7: SEQUENCE with no injection, LENGTH with three words. -/
theorem test_injCommit_errors : responseOf (exec .injCommit zeroState) = some ⟨0, 3⟩ ∧
    responseOf (exec .injCommit (injecting 3)) = some ⟨0, 4⟩ := by decide
/-- V-PK5 and V-PK6: RANGE before NOT_READY. -/
theorem test_peek_errors : responseOf (exec (.peek 700) zeroState) = some ⟨0, 5⟩ ∧
    responseOf (exec (.peek 0) zeroState) = some ⟨0, 2⟩ := by decide
/-- R170: PEEK gives the raw word, not the tempered one. -/
theorem test_peek_raw : responseOf (exec (.peek 623) { usable with mt := Vector.replicate 624 1 }) = some ⟨1, 0⟩ := by
  decide +kernel
/-- Section 2.8: an ILLEGAL word from STATUS 0x00000201 leaves 0x00000215. -/
theorem test_illegal : statusAfter (transact 0x00000012 0 { usable with index := 2 }) = some 0x00000215 := by decide

/-! ## Edges -/

/-- The first command after reset, offered at the very next edge, is run there: V-NX6 and V-IJ1. -/
theorem test_step_after_reset : statusAfter (step (State.reset.withFetchWord 32 2)) = some 0x00027024 ∧
    statusAfter (step (State.reset.withFetchWord 32 5)) = some 0x00027002 := by decide
/-- R72: `cmd_ready` falls at the accepting edge. -/
theorem test_accept_lowers_ready :
    (nextState (step (zeroState.withFetchWord 32 2))).map (cmdReady false) = some false := by decide
/-- R240: reset clears ERR, CAUSE and an outstanding command. -/
theorem test_reset_edge : statusAfter (clockEdge { idlePins with rst := true }
    { usable with err := true, cause := 4, phase := .executing 3, index := 5 }) = some 0x00027000 := by decide
/-- R73: the response is taken once and in order. -/
theorem test_take_response : (nextState (clockEdge { idlePins with rspReady := true }
    { usable with phase := .responding, rspData := 9, taken := [⟨8, 0⟩] })).map State.taken =
      some [⟨8, 0⟩, ⟨9, 0⟩] := by decide

/-! ## The bus adapter: the words of 30_encoding.md R84 in the two common byte orders -/

theorem test_bus_orders : toBus littleOrder 0x026F0008 = #v[0x08, 0x00, 0x6F, 0x02] ∧
    toBus bigOrder 0x026F0008 = #v[0x02, 0x6F, 0x00, 0x08] ∧
    fromBus bigOrder #v[0x12, 0x34, 0x56, 0x78] = 0x12345678 := by decide

/-! ## Assembler: 30_encoding.md R82, R84 -/

theorem test_asm_peek : assembleText "PEEK 0x2BC ; raises RANGE".toList = some [(0x02BC0008, 0)] := by decide
theorem test_asm_injWordU : assembleText "INJ.WORD.U 305419896".toList = some [(0x00000016, 0x12345678)] := by decide
theorem test_asm_refused : assembleText "PEEK 1024".toList = none ∧ assembleText "NEXT 1".toList = none := by decide
theorem test_asm_load_count : assembleText "LOAD 1, 2, 3".toList = none := by decide
/-- P1's first line and its seed; `NEW v` is `SEED v` (R83). -/
theorem test_asm_program : assemble [.newGen 0, .next] = some [(0x00000001, 0), (0x00000002, 0)] := by decide

/-! ## Witnesses: the hypotheses of each statement, met together -/

theorem witness_LegalityDecidesEveryWord : legalWord 0x03FF0008 ∧ legalWord 0x00000016 ∧ legalWord 0x00000001 ∧
    ¬ legalWord 0x00000000 ∧ ¬ legalWord 0x00000009 ∧ ¬ legalWord 0x00000012 ∧ ¬ legalWord 0x04000008 := by decide

theorem witness_DataOperandIsNeverChecked :
    (0x00000002 : Word).toNat % 16 = 2 ∧ (0x00000005 : Word).toNat % 16 = 5 ∧ (0x00000007 : Word).toNat % 16 = 7 ∧
      (0x03FF0008 : Word).toNat % 16 = 8 ∧ decode 0x00000001 0 = .ok (.seed 0) ∧
      (nextState (transact 0x00000006 5 (injecting 624))).isSome ∧ (nextState (transact 0x00000003 5 zeroState)).isSome := by
  decide

theorem witness_StepRunsTheDecodedCommand :
    ({ zeroState with inputs := [offerPins 2 0] } : State).inputs = offerPins 2 0 :: [] ∧ (offerPins 2 0).rst = false ∧
      (offerPins 2 0).cmdValid = true ∧ ({ zeroState with inputs := [offerPins 2 0] } : State).phase = .ready ∧
      decode (offerPins 2 0).cmdWord (offerPins 2 0).cmdData = .ok .next := by decide

theorem witness_StepOfAnIllegalWord :
    ({ zeroState with inputs := [offerPins 9 0] } : State).inputs = offerPins 9 0 :: [] ∧ (offerPins 9 0).rst = false ∧
      (offerPins 9 0).cmdValid = true ∧ ({ zeroState with inputs := [offerPins 9 0] } : State).phase = .ready ∧
      ¬ legalWord (offerPins 9 0).cmdWord := by decide

theorem witness_AcceptanceCondition :
    ((offerPins 2 0).rst = false ∧ (offerPins 2 0).cmdValid = true ∧ cmdReady (offerPins 2 0).rst zeroState = true) ∧
      idlePins.cmdValid = false ∧ idlePins.rst = false := by decide

theorem witness_OneCommandOutstanding :
    (accepts { zeroState with inputs := [offerPins 2 0] } = true ∧
      (nextState (step { zeroState with inputs := [offerPins 2 0] })).isSome) ∧
    (let s : State := { zeroState with phase := .responding, inputs := [{ idlePins with rspReady := true }] }
     (sampledPins s).rst = false ∧ s.outstanding = true ∧ rspValid false s = true ∧
       (sampledPins s).rspReady = true ∧ (nextState (step s)).isSome) ∧
    (let s : State := { zeroState with phase := .executing 0 }
     (sampledPins s).rst = false ∧ s.outstanding = true ∧ rspValid false s = false ∧ (nextState (step s)).isSome) := by
  decide

theorem witness_ResponseAfterLatency :
    ({ zeroState with phase := .executing 0 } : State).phase = .executing 0 ∧
      noReset 1 { zeroState with phase := .executing 0, inputs := [idlePins, { idlePins with rst := true }] } := by
  constructor
  · decide
  · simp [noReset, idlePins]

theorem witness_ResponseHeldUntilTaken :
    rspValid false { zeroState with phase := .responding } = true ∧
      ({ zeroState with phase := .responding } : State).phase = .responding ∧
      (sampledPins { zeroState with phase := .responding }).rst = false ∧
      (sampledPins { zeroState with phase := .responding }).rspReady = false ∧
      (sampledPins { zeroState with inputs := [{ idlePins with rspReady := true }] }).rspReady = true := by decide

theorem witness_ResetEdge : (sampledPins { usable with inputs := [{ idlePins with rst := true }] }).rst = true := by
  decide

theorem witness_ReadyAfterResetLatency :
    ({ zeroState with phase := .inReset } : State).phase = .inReset ∧
      noReset (({ zeroState with phase := .inReset } : State).lat.reset + 1) { zeroState with phase := .inReset } := by
  constructor
  · decide
  · simp [noReset, zeroState]

theorem witness_StatusPortShowsStatus : zeroState.phase = .ready ∧
    ({ zeroState with phase := .waking 0 } : State).phase = .waking 0 ∧
    ({ zeroState with phase := .executing 0 } : State).outstanding = true ∧
    (nextState (step zeroState)).isSome := by decide

theorem witness_NextReadsAtTheCursor :
    ({ usable with index := 623 } : State).index.toNat < 624 ∧ ({ usable with index := 623 } : State).valid = true := by
  decide

theorem witness_NextTwistsAtTheEnd : 624 ≤ usable.index.toNat ∧ usable.valid = true := by decide

theorem witness_NotReadyWithoutAState : zeroState.valid = false ∧ (623 : BitVec 10).toNat < 624 := by decide

theorem witness_InjWordWritesOneWord : (injecting 623).injcnt.toNat < 624 ∧ (injecting 623).inj = true := by decide

theorem witness_InjWordStopsPastTheArray : (injecting 625).inj = true ∧ 624 < (injecting 625).injcnt.toNat := by decide

theorem witness_InjCommitArmsTheState : (injecting 624).inj = true ∧ (injecting 624).injcnt = 624#10 := by decide

theorem witness_PeekReadsTheRawWord : (623 : BitVec 10).toNat < 624 ∧ usable.valid = true := by decide

theorem witness_SequenceWithoutAnInjection : zeroState.inj = false := by decide

theorem witness_LengthOnAWrongCount : (injecting 624).Inv ∧ (injecting 624).inj = true ∧
    (injecting 624).injcnt = 624#10 ∧ (injecting 623).Inv ∧ (injecting 623).inj = true ∧
    (injecting 623).injcnt.toNat < 624 := by decide

theorem witness_RangeOnAnAbsentIndex : 624 ≤ (624 : BitVec 10).toNat ∧ 624 ≤ (1023 : BitVec 10).toNat := by decide

theorem witness_ErrorPriority :
    ¬ legalWord 0x00010001 ∧ (nextState (transact 0x00010001 0 zeroState)).isSome ∧
    (624 ≤ (700 : BitVec 10).toNat ∧ zeroState.valid = false ∧ (nextState (exec (.peek 700) zeroState)).isSome) ∧
    (({ zeroState with injcnt := 624 } : State).inj = false ∧ ({ zeroState with injcnt := 624 } : State).injcnt = 624#10 ∧
      (nextState (exec (.injWord false 0) { zeroState with injcnt := 624 })).isSome) ∧
    (zeroState.inj = false ∧ zeroState.injcnt ≠ 624#10 ∧ (nextState (exec .injCommit zeroState)).isSome) ∧
    (nextState (exec .next zeroState)).isSome := by decide

/-- An error of each kind: a plain one and LENGTH. -/
theorem witness_ErrorEffect : zeroState.Inv ∧ (responseOf (transact 2 0 zeroState) = some ⟨0, 2⟩) ∧
    (injecting 3).Inv ∧ responseOf (transact 7 0 (injecting 3)) = some ⟨0, 4⟩ := by decide

theorem witness_ErrorRecordIsSticky :
    responseOf (transact 2 0 zeroState) = some ⟨0, 2⟩ ∧ responseOf (transact 5 0 zeroState) = some ⟨0, 0⟩ ∧
    (let s : State := { zeroState with err := true, cause := 3 }
     (sampledPins s).rst = false ∧ s.err = true ∧ s.cause ≠ 0 ∧ accepts s = false ∧ (nextState (step s)).isSome) ∧
    (let s : State := { zeroState with err := true, cause := 3, inputs := [{ idlePins with rst := true }] }
     (sampledPins s).rst = true ∧ (nextState (step s)).isSome) := by
  decide

theorem witness_ErrorCodesAndTheirRaisers :
    responseOf (transact 0 0 zeroState) = some ⟨0, 1⟩ ∧ responseOf (exec .next zeroState) = some ⟨0, 2⟩ ∧
    responseOf (exec .injCommit zeroState) = some ⟨0, 3⟩ ∧
    responseOf (exec (.injWord false 0) (injecting 624)) = some ⟨0, 4⟩ ∧
    responseOf (exec (.peek 624) zeroState) = some ⟨0, 5⟩ := by decide

/-- Each field of the statement changes under one of the commands it names. -/
theorem witness_RegisterWriters :
    ((nextState (exec .injStart usable)).map fun t => (t.valid, t.inj)) = some (false, true) ∧
    ((nextState (exec .next { usable with index := 5 })).map State.index) = some 6 ∧
    ((nextState (exec (.injWord false 1) (injecting 0))).map fun t => readWord t.mt 0) = some 1 := by decide +kernel

/-- An accepted INJ_WORD changes the array. -/
theorem witness_StateArrayWriters :
    ((nextState (step ((injecting 0).withFetchWord 64 0x0000000100000006))).map fun t => readWord t.mt 0) = some 1 ∧
      readWord (injecting 0).mt 0 = 0 := by decide +kernel

theorem witness_InvariantKeptByEveryStep : zeroState.Inv ∧ usable.Inv ∧ (injecting 624).Inv ∧
    (nextState (step zeroState)).isSome := by decide

theorem witness_TwistSchedule : usable.valid = true ∧ usable.index = 624#10 := by decide

theorem witness_EngineNeverStops : zeroState.Inv ∧ (injecting 624).Inv := by decide

theorem witness_TwistFollowsTheRecurrence : ∃ X, isTwistSequence X ∧ beginsWith X zeroState.mt :=
  exists_sequence_of_array zeroState.mt

theorem witness_OutputStreamClosedForm : (∃ X, isTwistSequence X ∧ beginsWithSeed X 5489) ∧
    (∃ X, isTwistSequence X ∧ beginsWith X (injecting 624).mt) ∧ (injecting 624).inj = true ∧
    (injecting 624).injcnt = 624#10 ∧
    (∀ c ∈ [((0x00000002 : Word), (0 : Word)), (0x00010008, 0), (3, 1), (4, 1), (9, 0)], keepsStream c = true) :=
  ⟨exists_sequence_of_seed 5489, exists_sequence_of_array _, by decide, by decide, by
    simp only [List.forall_mem_cons]
    exact ⟨by decide, by decide, by decide, by decide, by decide, by simp⟩⟩

theorem witness_ZeroStateStaysZero : usable.Inv ∧ usable.valid = true ∧ usable.mt = Vector.replicate 624 0 :=
  ⟨by decide, by decide, rfl⟩

theorem witness_CloneFidelity : usable.Inv ∧ usable.valid = true := by decide

/-- Two states that differ in a word no command may read, and the step of one of them. -/
theorem witness_UnwrittenWordsAreUnobservable :
    agreeOnWritten zeroState { zeroState with mt := Vector.replicate 624 1 } ∧
      (nextState (step zeroState)).isSome := by
  refine ⟨⟨rfl, fun h => ?_, fun h => ?_⟩, by decide⟩
  · exact absurd h (by decide)
  · exact absurd h (by decide)

theorem witness_EdgesRefineTransactions :
    zeroState.Inv ∧ noReset 1 { zeroState with inputs := [offerPins 2 0] } ∧
      (nextState (runSteps 1 { zeroState with inputs := [offerPins 2 0] })).isSome := by
  refine ⟨by decide, ?_, by decide⟩
  simp [noReset, offerPins]

theorem witness_ReadsAreIdempotent : (nextState (exec (.temper 1) zeroState)).isSome ∧
    (nextState (exec (.untemper 1) zeroState)).isSome ∧ (nextState (exec (.peek 623) usable)).isSome := by
  decide +kernel

theorem witness_AssemblerTable : 0xFFFFFFFF < 2 ^ 32 ∧ 1023 < 1024 ∧ 2 ^ 32 ≤ 0x100000000 ∧ 1024 ≤ 1024 := by decide

theorem witness_PseudoCommandExpansions :
    (List.replicate 624 (5 : Word)).length = 624 ∧ ([1, 2] : List Nat).length ≠ 624 := by decide +kernel

theorem witness_EnginesShareNothing :
    (systemStep (nEngines := ⟨2, by decide⟩) 1 #v[zeroState, usable]).isSome ∧
      (systemStep (nEngines := ⟨1, by decide⟩) 0 #v[zeroState]).isSome := by decide

end Sys2Proof.Tests
end

section
/-! PROOF. The layout of STATUS (10_state.md R32): what one shifted field puts at bit i, then the bit table of
`statusWord`, from which each field is read off. -/

namespace Sys2Proof.Machine

theorem getLsbD_flagWord_shiftLeft (b : Bool) (k i : Nat) (hi : i < 32) :
    (flagWord b <<< k).getLsbD i = (decide (i = k) && b) := by
  cases b with
  | false => simp [flagWord]
  | true =>
    have hbit : (k ≤ i ∧ i - k = 0) ↔ i = k := by omega
    simp [flagWord, hi, ← decide_not, ← Bool.decide_and, hbit]

theorem getLsbD_setWidth_shiftLeft {n : Nat} (v : BitVec n) (k i : Nat) (hi : i < 32) :
    (v.setWidth 32 <<< k).getLsbD i = (decide (k ≤ i) && v.getLsbD (i - k)) := by
  have hsub : i - k < 32 := by omega
  simp only [BitVec.getLsbD_shiftLeft, BitVec.getLsbD_setWidth, hi, hsub, decide_true, Bool.true_and, ← decide_not,
    Nat.not_lt]

/-- The table of R32, highest field first. A field stops where the next one starts because it has no bit above its
width. -/
theorem getLsbD_statusWord (s : State) (i : Nat) (hi : i < 32) :
    (statusWord s).getLsbD i =
      if 18 ≤ i then s.injcnt.getLsbD (i - 18)
      else if 8 ≤ i then s.index.getLsbD (i - 8)
      else if 4 ≤ i then s.cause.getLsbD (i - 4)
      else if i = 2 then s.err
      else if i = 1 then s.inj
      else if i = 0 then s.valid
      else false := by
  have hvalid : (flagWord s.valid).getLsbD i = (decide (i = 0) && s.valid) := by
    simpa using getLsbD_flagWord_shiftLeft s.valid 0 i hi
  have hindex (h : 18 ≤ i) : s.index.getLsbD (i - 8) = false := BitVec.getLsbD_of_ge _ _ (by omega)
  have hcause (h : 8 ≤ i) : s.cause.getLsbD (i - 4) = false := BitVec.getLsbD_of_ge _ _ (by omega)
  simp only [statusWord, BitVec.getLsbD_or, getLsbD_setWidth_shiftLeft _ _ i hi, getLsbD_flagWord_shiftLeft _ _ i hi,
    hvalid]
  grind

/-- A field of a word is the value whose bits the word holds from the field's first bit up. -/
theorem extractLsb'_eq_of_getLsbD {n start : Nat} {w : Word} {v : BitVec n}
    (h : ∀ j, j < n → w.getLsbD (start + j) = v.getLsbD j) : w.extractLsb' start n = v := by
  refine BitVec.eq_of_getLsbD_eq fun j hj => ?_
  rw [BitVec.getLsbD_extractLsb', decide_eq_true hj, Bool.true_and, h j hj]

theorem statusWord_flags (s : State) :
    (statusWord s).getLsbD 0 = s.valid ∧ (statusWord s).getLsbD 1 = s.inj ∧
      (statusWord s).getLsbD 2 = s.err ∧ (statusWord s).getLsbD 3 = false :=
  ⟨getLsbD_statusWord s 0 (by decide), getLsbD_statusWord s 1 (by decide), getLsbD_statusWord s 2 (by decide),
    getLsbD_statusWord s 3 (by decide)⟩

theorem statusWord_cause (s : State) : (statusWord s).extractLsb' 4 4 = s.cause :=
  extractLsb'_eq_of_getLsbD fun j hj => by
    rw [getLsbD_statusWord s _ (by omega), if_neg (by omega), if_neg (by omega), if_pos (by omega),
      Nat.add_sub_cancel_left]

theorem statusWord_index (s : State) : (statusWord s).extractLsb' 8 10 = s.index :=
  extractLsb'_eq_of_getLsbD fun j hj => by
    rw [getLsbD_statusWord s _ (by omega), if_neg (by omega), if_pos (by omega), Nat.add_sub_cancel_left]

theorem statusWord_injcnt (s : State) : (statusWord s).extractLsb' 18 10 = s.injcnt :=
  extractLsb'_eq_of_getLsbD fun j hj => by
    rw [getLsbD_statusWord s _ (by omega), if_pos (by omega), Nat.add_sub_cancel_left]

theorem statusWord_reserved (s : State) : (statusWord s).extractLsb' 28 4 = 0 :=
  extractLsb'_eq_of_getLsbD fun j hj => by
    rw [getLsbD_statusWord s _ (by omega), if_pos (by omega), BitVec.getLsbD_of_ge _ _ (by omega)]
    exact BitVec.getLsbD_zero.symm

theorem statusWord_reset : statusWord State.reset = 0x00027000 := by decide

/-- Settles O15: the fields of STATUS read off its bit table, and its value at reset computed. -/
theorem statusLayout : Obligations.StatusLayout := by
  refine ⟨fun s => ?_, statusWord_reset⟩
  obtain ⟨hvalid, hinj, herr, hbit3⟩ := statusWord_flags s
  exact ⟨hvalid, hinj, herr, hbit3, statusWord_cause s, statusWord_index s, statusWord_injcnt s,
    statusWord_reserved s⟩

end Sys2Proof.Machine
end

section
/-! PROOF. The command words (30_encoding.md R74 to R81): the fields of a word as numbers, the legal words as exactly
the words `encodeWord` gives, and what decoding one with any data operand yields. The encoding's statements follow. -/

namespace Sys2Proof.Machine

open Laws

/-! The fields of R74 as the numbers of which `legalWord` speaks. -/

@[simp] theorem opField_toNat (w : Word) : (opField w).toNat = w.toNat % 16 := by
  simp [opField, BitVec.extractLsb'_toNat]

@[simp] theorem res0Field_toNat (w : Word) : (res0Field w).toNat = w.toNat / 32 % 2048 := by
  simp [res0Field, BitVec.extractLsb'_toNat, Nat.shiftRight_eq_div_pow]

@[simp] theorem idxField_toNat (w : Word) : (idxField w).toNat = w.toNat / 65536 % 1024 := by
  simp [idxField, BitVec.extractLsb'_toNat, Nat.shiftRight_eq_div_pow]

@[simp] theorem res1Field_toNat (w : Word) : (res1Field w).toNat = w.toNat / 67108864 := by
  have hw := w.isLt
  simp only [res1Field, BitVec.extractLsb'_toNat, Nat.shiftRight_eq_div_pow]
  omega

theorem uField_eq_decide (w : Word) : uField w = decide (w.toNat / 16 % 2 = 1) :=
  Nat.testBit_eq_decide_div_mod_eq

/-- R78 on the fields of a word, in the order in which the decoder checks them. -/
theorem legalWord_iff_fields (w : Word) : legalWord w ↔
    res0Field w = 0#11 ∧ res1Field w = 0#6 ∧ ¬ (uField w = true ∧ opField w ≠ 6#4) ∧
      ¬ (idxField w ≠ 0#10 ∧ opField w ≠ 8#4) ∧ 1 ≤ w.toNat % 16 ∧ w.toNat % 16 ≤ 8 := by
  simp only [legalWord, uField_eq_decide, decide_eq_true_eq, ne_eq, ← BitVec.toNat_inj, opField_toNat,
    res0Field_toNat, res1Field_toNat, idxField_toNat, BitVec.toNat_ofNat]
  omega

/-! The decoder and the legality test of R78. -/

/-- A legal word passes the decoder's field checks. -/
theorem decode_of_legalWord {w : Word} (h : legalWord w) (d : Word) : decode w d = decodeOpcode w d := by
  obtain ⟨hres0, hres1, hu, hidx, -⟩ := (legalWord_iff_fields w).mp h
  rw [decode, if_neg (not_not.mpr hres0), if_neg (not_not.mpr hres1), if_neg hu, if_neg hidx]

/-- The opcode map takes opcodes 1 to 8 only (R75). -/
theorem opcode_range_of_decodeOpcode_ok {w d : Word} {i : Instr} (h : decodeOpcode w d = .ok i) :
    1 ≤ w.toNat % 16 ∧ w.toNat % 16 ≤ 8 := by
  have hop := opField_toNat w
  unfold decodeOpcode at h
  split at h
  case h_9 => cases h
  all_goals omega

theorem legalWord_of_decode_ok {w d : Word} {i : Instr} (h : decode w d = .ok i) : legalWord w := by
  unfold decode at h
  split_ifs at h with hres0 hres1 hu hidx
  exact (legalWord_iff_fields w).mpr
    ⟨not_not.mp hres0, not_not.mp hres1, hu, hidx, opcode_range_of_decodeOpcode_ok h⟩

/-! The legal words are the encoded ones. -/

/-- R78 leaves one word for each opcode, two for INJ_WORD and one for each PEEK index. -/
theorem exists_encodeWord_of_legalWord {w : Word} (h : legalWord w) : ∃ i, encodeWord i = w := by
  obtain ⟨hop, hres0, hres1, hu, hidx⟩ := h
  have hcases : w.toNat = 1 ∨ w.toNat = 2 ∨ w.toNat = 3 ∨ w.toNat = 4 ∨ w.toNat = 5 ∨ w.toNat = 6 ∨ w.toNat = 22 ∨
      w.toNat = 7 ∨ w.toNat = (idxField w).toNat * 65536 + 8 := by
    rw [idxField_toNat]
    omega
  obtain hw | hw | hw | hw | hw | hw | hw | hw | hw := hcases
  · exact ⟨.seed 0, BitVec.eq_of_toNat_eq hw.symm⟩
  · exact ⟨.next, BitVec.eq_of_toNat_eq hw.symm⟩
  · exact ⟨.temper 0, BitVec.eq_of_toNat_eq hw.symm⟩
  · exact ⟨.untemper 0, BitVec.eq_of_toNat_eq hw.symm⟩
  · exact ⟨.injStart, BitVec.eq_of_toNat_eq hw.symm⟩
  · exact ⟨.injWord false 0, BitVec.eq_of_toNat_eq hw.symm⟩
  · exact ⟨.injWord true 0, BitVec.eq_of_toNat_eq hw.symm⟩
  · exact ⟨.injCommit, BitVec.eq_of_toNat_eq hw.symm⟩
  · exact ⟨.peek (idxField w), BitVec.eq_of_toNat_eq ((LegalEncoding.peekWord_toNat _).trans hw.symm)⟩

/-- Every encoded word is legal and carries its command's opcode (R75, R78). -/
theorem legalEncoding (i : Instr) : LegalEncoding.Statement i := by
  cases i with
  | seed v => exact LegalEncoding.seed v
  | next => exact LegalEncoding.next
  | temper v => exact LegalEncoding.temper v
  | untemper v => exact LegalEncoding.untemper v
  | injStart => exact LegalEncoding.injStart
  | injWord u v => exact LegalEncoding.injWord u v
  | injCommit => exact LegalEncoding.injCommit
  | peek idx => exact LegalEncoding.peek idx

theorem legalWord_encodeWord (i : Instr) : legalWord (encodeWord i) := (legalEncoding i).1

theorem encodeWord_toNat_mod (i : Instr) : (encodeWord i).toNat % 16 = LegalEncoding.opcode i := (legalEncoding i).2

/-! Decoding an encoded word with any data operand. -/

/-- The command with d as its data operand, where it has one (R79). -/
def withData (i : Instr) (d : Word) : Instr :=
  match i with
  | .seed _ => .seed d
  | .next => .next
  | .temper _ => .temper d
  | .untemper _ => .untemper d
  | .injStart => .injStart
  | .injWord u _ => .injWord u d
  | .injCommit => .injCommit
  | .peek idx => .peek idx

@[simp] theorem encodeWord_withData (i : Instr) (d : Word) : encodeWord (withData i d) = encodeWord i := by
  cases i with
  | injWord u v => cases u <;> rfl
  | seed | next | temper | untemper | injStart | injCommit | peek => rfl

theorem withData_of_not_usesData {i : Instr} (h : usesData i = false) (d : Word) : withData i d = i := by
  cases i with
  | seed | temper | untemper | injWord => cases h
  | next | injStart | injCommit | peek => rfl

/-- The commands that ignore the data operand are those of opcodes 2, 5, 7 and 8 (R75, R79). -/
theorem usesData_eq_false_iff (i : Instr) :
    usesData i = false ↔ LegalEncoding.opcode i = 2 ∨ LegalEncoding.opcode i = 5 ∨ LegalEncoding.opcode i = 7 ∨
      LegalEncoding.opcode i = 8 := by
  cases i <;> simp [usesData, LegalEncoding.opcode]

theorem idxField_peekWord (idx : BitVec 10) : idxField (encodeWord (.peek idx)) = idx := by
  have hidx := idx.isLt
  apply BitVec.eq_of_toNat_eq
  rw [idxField_toNat, LegalEncoding.peekWord_toNat]
  omega

theorem uField_injWord (u : Bool) (v : Word) : uField (encodeWord (.injWord u v)) = u := by
  cases u <;> simp [uField, encodeWord]

@[simp] theorem decode_encodeWord (i : Instr) (d : Word) : decode (encodeWord i) d = .ok (withData i d) := by
  rw [decode_of_legalWord (legalWord_encodeWord i), decodeOpcode, opField_toNat, encodeWord_toNat_mod]
  cases i with
  | injWord u v => simp only [LegalEncoding.opcode, uField_injWord, withData]
  | peek idx => simp only [LegalEncoding.opcode, idxField_peekWord, withData]
  | seed | next | temper | untemper | injStart | injCommit => rfl

/-! The two outcomes of a command word (R80). -/

@[simp] theorem transact_encodeWord (i : Instr) (d : Word) (s : State) :
    transact (encodeWord i) d s = exec (withData i d) s := by
  simp [transact]

theorem transact_of_not_legalWord {w : Word} (h : ¬ legalWord w) (d : Word) (s : State) :
    transact w d s = .next (raised .illegal s) := by
  obtain ⟨i, hi, -⟩ | ⟨r, -, ht⟩ := transact_cases w d s
  · exact absurd (legalWord_of_decode_ok hi) h
  · exact ht

/-- Settles O4: a legal word is an encoded word, which decodes to its command; any other word raises ILLEGAL. -/
theorem legalityDecidesEveryWord : Obligations.LegalityDecidesEveryWord := by
  refine fun w d s => ⟨fun hlegal => ?_, fun hnot => transact_of_not_legalWord hnot d s⟩
  obtain ⟨i, rfl⟩ := exists_encodeWord_of_legalWord hlegal
  exact ⟨withData i d, decode_encodeWord i d, encodeWord_withData i d, transact_encodeWord i d s⟩

/-! The error code of a command does not depend on its data operand. -/

/-- INJ_WORD with an injection open and room for the word (41_recoverer.md R144). -/
theorem execInjWord_of_lt (u : Bool) (d : Word) {s : State} (hinj : s.inj = true) (hlt : s.injcnt.toNat < 624) :
    execInjWord u d s = .next { s with
      mt := writeWord s.mt ⟨s.injcnt.toNat, hlt⟩ (injectedWord u d), injcnt := s.injcnt + 1,
      rspData := injectedWord u d, rspErr := okCode } := by
  have hne : s.injcnt ≠ 624#10 := fun hfull => by simp [hfull] at hlt
  rw [execInjWord, if_neg (by simp [hinj]), if_neg hne, dif_pos hlt, respond]

/-- INJ_WORD's answer is chosen by INJ and INJCNT alone. -/
theorem execInjWord_rspErr {u : Bool} {d : Word} {s t : State} (h : execInjWord u d s = .next t) (d' : Word) :
    ∃ t', execInjWord u d' s = .next t' ∧ t'.rspErr = t.rspErr := by
  obtain ⟨hinj, rfl⟩ | ⟨hinj, hfull, rfl⟩ | ⟨hinj, hlt, rfl⟩ := execInjWord_next h
  · exact ⟨raised .sequence s, if_pos hinj, rfl⟩
  · exact ⟨raised .length s, by simp [execInjWord, hinj, hfull, raiseError], rfl⟩
  · exact ⟨_, execInjWord_of_lt u d' hinj hlt, rfl⟩

theorem exec_withData_rspErr {i : Instr} {d : Word} {s t : State} (h : exec (withData i d) s = .next t) (d' : Word) :
    ∃ t', exec (withData i d') s = .next t' ∧ t'.rspErr = t.rspErr := by
  cases i with
  | seed => exact ⟨_, rfl, by rw [execSeed_next h]⟩
  | temper => exact ⟨_, rfl, by rw [execTemper_next h]⟩
  | untemper => exact ⟨_, rfl, by rw [execUntemper_next h]⟩
  | injWord u => exact execInjWord_rspErr h d'
  | next | injStart | injCommit | peek => exact ⟨t, h, rfl⟩

theorem transact_rspErr {w d : Word} {s t : State} (h : transact w d s = .next t) (d' : Word) :
    ∃ t', transact w d' s = .next t' ∧ t'.rspErr = t.rspErr := by
  by_cases hlegal : legalWord w
  · obtain ⟨i, rfl⟩ := exists_encodeWord_of_legalWord hlegal
    rw [transact_encodeWord] at h ⊢
    exact exec_withData_rspErr h d'
  · rw [transact_of_not_legalWord hlegal] at h ⊢
    exact ⟨t, h, rfl⟩

/-- A word with the opcode of a command that ignores the data operand executes alike with any two of them (R79). -/
theorem transact_data_ignored {w : Word}
    (hop : w.toNat % 16 = 2 ∨ w.toNat % 16 = 5 ∨ w.toNat % 16 = 7 ∨ w.toNat % 16 = 8) (d d' : Word) (s : State) :
    transact w d s = transact w d' s := by
  by_cases hlegal : legalWord w
  · obtain ⟨i, rfl⟩ := exists_encodeWord_of_legalWord hlegal
    rw [encodeWord_toNat_mod, ← usesData_eq_false_iff] at hop
    simp only [transact_encodeWord, withData_of_not_usesData hop]
  · simp only [transact_of_not_legalWord hlegal]

/-- Settles O5: an encoded word decodes to its command with the data operand in place, whatever that is, and the
legal words are the encoded ones. -/
theorem dataOperandIsNeverChecked : Obligations.DataOperandIsNeverChecked := by
  refine ⟨fun d => ?_, fun w d d' s hop => transact_data_ignored hop d d' s, fun w d d' h => ?_,
    fun w d d' s t h => transact_rspErr h d'⟩
  · exact ⟨decode_encodeWord (.seed d) d, decode_encodeWord (.temper d) d, decode_encodeWord (.untemper d) d,
      decode_encodeWord (.injWord false d) d, decode_encodeWord (.injWord true d) d⟩
  · obtain ⟨i, hi⟩ := h
    obtain ⟨j, rfl⟩ := exists_encodeWord_of_legalWord (legalWord_of_decode_ok hi)
    exact ⟨withData j d', decode_encodeWord j d'⟩

end Sys2Proof.Machine
end

section
/-! PROOF. The twist as the recurrence of 40_generator.md R104: the word a pass writes, then the words of one twist,
then those of every later generation. -/

namespace Sys2Proof.Machine

/-! The word a twist pass writes (R103). -/

/-- The two masks have no bit in common. -/
theorem masked_and_masked (cur succ : Word) : (cur &&& upperMask) &&& (succ &&& lowerMask) = 0#32 := by
  calc (cur &&& upperMask) &&& (succ &&& lowerMask)
      = (cur &&& succ) &&& (upperMask &&& lowerMask) := by ac_rfl
    _ = 0#32 := by rw [show upperMask &&& lowerMask = 0#32 by decide, BitVec.and_zero]

theorem masked_add_eq_or (cur succ : Word) :
    (cur &&& upperMask) + (succ &&& lowerMask) = (cur &&& 0x80000000) ||| (succ &&& 0x7FFFFFFF) :=
  BitVec.add_eq_or_of_and_eq_zero _ _ (masked_and_masked cur succ)

theorem masked_or_bit_zero (cur succ : Word) :
    ((cur &&& 0x80000000) ||| (succ &&& 0x7FFFFFFF)).getLsbD 0 = succ.getLsbD 0 := by
  simp

theorem twistWord_eq_seqSucc (cur succ mid : Word) : twistWord cur succ mid = seqSucc cur succ mid := by
  simp only [twistWord, seqSucc, mixBits, masked_add_eq_or]
  split
  · rfl
  · simp

/-- Settles O45: the masked words have no common bit, so their sum is their OR, whose bit 0 is the next word's. -/
theorem twistAdditionNeverCarries : Obligations.TwistAdditionNeverCarries := by
  refine fun cur succ mid => ⟨masked_add_eq_or cur succ, ?_, ?_⟩
  · rw [masked_add_eq_or, masked_or_bit_zero]
  · rw [twistWord_eq_seqSucc, seqSucc, mixBits, masked_or_bit_zero, BitVec.xor_assoc]

/-! One twist: the new words continue the sequence (R104). -/

theorem readWord_of_beginsWith {X : Nat → Word} {mt : StateArray} (h : beginsWith X mt) {i : Nat} (hi : i < 624) :
    readWord mt (stateIndex i) = X i := by
  rw [readWord_stateIndex mt hi, h i hi]

/-- Word i of a twist is word 624 + i of the sequence, whichever of the words it reads are new: those have a smaller
index. -/
theorem readWord_twist_eq {X : Nat → Word} {mt : StateArray} (hX : isTwistSequence X) (h : beginsWith X mt) (i : Nat)
    (hi : i < 624) : readWord (twist mt) (stateIndex i) = X (i + 624) := by
  have old {j : Nat} (hj : j < 624) : readWord mt (stateIndex j) = X j := readWord_of_beginsWith h hj
  induction i using Nat.strong_induction_on with
  | _ i ih =>
    rw [hX i]
    by_cases low : i < 227
    · rw [readWord_twist_low mt low, twistWord_eq_seqSucc, old (by omega), old (by omega), old (by omega), seqSucc]
    · by_cases high : i < 623
      · rw [readWord_twist_high mt (by omega) high, twistWord_eq_seqSucc, old (by omega), old (by omega),
          ih (i - 227) (by omega) (by omega), show i - 227 + 624 = i + 397 by omega, seqSucc]
      · obtain rfl : i = 623 := by omega
        rw [readWord_twist_last, twistWord_eq_seqSucc, old (by omega), ih 0 (by omega) (by omega),
          ih 396 (by omega) (by omega), seqSucc]

/-! Every generation. -/

/-- The sequence from generation g on. -/
def fromGeneration (X : Nat → Word) (g i : Nat) : Word := X (624 * g + i)

theorem isTwistSequence_fromGeneration {X : Nat → Word} (hX : isTwistSequence X) (g : Nat) :
    isTwistSequence (fromGeneration X g) := by
  intro k
  simpa only [fromGeneration, Nat.add_assoc] using hX (624 * g + k)

/-- A twist goes to the next generation. -/
theorem twist_beginsWith {X : Nat → Word} {mt : StateArray} {g : Nat} (hX : isTwistSequence X)
    (h : beginsWith (fromGeneration X g) mt) : beginsWith (fromGeneration X (g + 1)) (twist mt) := by
  intro i hi
  rw [← readWord_stateIndex _ hi, readWord_twist_eq (isTwistSequence_fromGeneration hX g) h i hi]
  exact congrArg X (by omega)

theorem iterate_twist_beginsWith {X : Nat → Word} {mt : StateArray} (hX : isTwistSequence X) (h : beginsWith X mt)
    (g : Nat) : beginsWith (fromGeneration X g) (twist^[g] mt) := by
  induction g with
  | zero => simpa [beginsWith, fromGeneration] using h
  | succ g ih => rw [Function.iterate_succ_apply']; exact twist_beginsWith hX ih

/-- Settles O44, by induction on the generation. -/
theorem twistFollowsTheRecurrence : Obligations.TwistFollowsTheRecurrence :=
  fun _ _ h hX g i hi => (iterate_twist_beginsWith hX h g i hi).symm

end Sys2Proof.Machine
end

section
/-! PROOF. NEXT as a cursor on the sequence: the twist schedule (40_generator.md R108) and the output stream in closed
form (R110). -/

namespace Sys2Proof.Machine

/-! What NEXT does with a usable state (R106). -/

theorem execNext_of_lt {s : State} (hv : s.valid = true) (hlt : s.index.toNat < 624) :
    execNext s = .next { s with
      index := s.index + 1, rspData := temper (readWord s.mt (stateIndex s.index.toNat)), rspErr := okCode } := by
  simp [execNext, hv, hlt, extractAt, respond, stateIndex_of_lt]

theorem execNext_of_ge {s : State} (hv : s.valid = true) (hge : 624 ≤ s.index.toNat) :
    execNext s = .next { s with
      mt := twist s.mt, index := 1, rspData := temper (readWord (twist s.mt) (stateIndex 0)), rspErr := okCode } := by
  simp [execNext, hv, hge, extractAt, respond]

/-- The word of NEXT executes NEXT, whatever the data operand. -/
theorem transact_next (d : Word) (s : State) : transact 0x00000002 d s = execNext s := transact_encodeWord .next d s

/-! Sequences of commands. -/

theorem runCommands_cons_some {c : Word × Word} {cs : List (Word × Word)} {s t u : State} {rs : List Response}
    (h : transact c.1 c.2 s = .next t) (hcs : runCommands cs t = some (u, rs)) :
    runCommands (c :: cs) s = some (u, t.response :: rs) := by
  rw [runCommands_cons h, hcs, Option.map_some]

theorem runCommands_concat {c : Word × Word} {cs : List (Word × Word)} {s t u : State} {rs : List Response}
    (hcs : runCommands cs s = some (t, rs)) (h : transact c.1 c.2 t = .next u) :
    runCommands (cs ++ [c]) s = some (u, rs ++ [u.response]) := by
  rw [runCommands_append, hcs, Option.bind_some, runCommands_cons_some h rfl, Option.map_some]

/-- One NEXT more. -/
theorem runCommands_nextCommands_succ {k : Nat} {s t u : State} {rs : List Response}
    (hrun : runCommands (nextCommands k) s = some (t, rs)) (h : execNext t = .next u) :
    runCommands (nextCommands (k + 1)) s = some (u, rs ++ [u.response]) := by
  have hlast : nextCommands (k + 1) = nextCommands k ++ [(0x00000002, 0)] := List.replicate_succ'
  rw [hlast]
  exact runCommands_concat (c := (0x00000002, 0)) hrun ((transact_next 0 t).trans h)

/-! The twist schedule. -/

/-- The cursor after k NEXT commands that started with it at 624. -/
def scheduledIndex (k : Nat) : Nat := (k + 623) % 624 + 1

/-- NEXT number k + 1 twists exactly when the cursor is at 624, and takes the cursor to its next place. -/
theorem execNext_scheduled {s : State} {k : Nat} (hv : s.valid = true) (hi : s.index.toNat = scheduledIndex k) :
    ∃ t, execNext s = .next t ∧ t.valid = true ∧ t.index.toNat = scheduledIndex (k + 1) ∧
      t.mt = if s.index.toNat < 624 then s.mt else twist s.mt := by
  by_cases hlt : s.index.toNat < 624
  · refine ⟨_, execNext_of_lt hv hlt, hv, ?_, (if_pos hlt).symm⟩
    rw [toNat_succ_of_lt hlt]
    simp only [scheduledIndex] at hi ⊢
    omega
  · refine ⟨_, execNext_of_ge hv (by omega), hv, ?_, (if_neg hlt).symm⟩
    show 1 = scheduledIndex (k + 1)
    simp only [scheduledIndex] at hi ⊢
    omega

theorem runCommands_nextCommands_scheduled {s : State} (hv : s.valid = true) (hi : s.index = 624#10) (k : Nat) :
    ∃ t rs, runCommands (nextCommands k) s = some (t, rs) ∧ t.valid = true ∧ t.index.toNat = scheduledIndex k := by
  induction k with
  | zero => exact ⟨s, [], rfl, hv, by rw [hi]; rfl⟩
  | succ k ih =>
    obtain ⟨t, rs, hrun, htv, hti⟩ := ih
    obtain ⟨u, hnext, huv, hui, -⟩ := execNext_scheduled htv hti
    exact ⟨u, _, runCommands_nextCommands_succ hrun hnext, huv, hui⟩

/-- Settles O43: k - 1 NEXTs leave the cursor at its scheduled place, which is 624 exactly when k mod 624 = 1. -/
theorem twistSchedule : Obligations.TwistSchedule := by
  intro s hv hi k hk
  obtain ⟨n, rfl⟩ : ∃ n, k = n + 1 := ⟨k - 1, by omega⟩
  obtain ⟨t, rt, hrun, htv, hti⟩ := runCommands_nextCommands_scheduled hv hi n
  obtain ⟨u, hnext, -, hui, humt⟩ := execNext_scheduled htv hti
  simp only [scheduledIndex] at hti hui
  refine ⟨t, u, rt, _, hrun, runCommands_nextCommands_succ hrun hnext, by omega, fun htwist => ?_, fun hkeep => ?_⟩
  · have hge : 624 ≤ t.index.toNat := by omega
    exact ⟨hge, by rw [humt, if_neg (by omega)]⟩
  · have hlt : t.index.toNat < 624 := by omega
    exact ⟨hlt, by rw [humt, if_pos hlt]⟩

/-! The cursor's place in the sequence. -/

/-- The array holds a generation of X and the cursor stands at word n of X, the end of a generation counting as the
place before a twist. -/
def readsAt (X : Nat → Word) (n : Nat) (s : State) : Prop :=
  s.valid = true ∧ s.index.toNat ≤ 624 ∧
    ∃ g, beginsWith (fromGeneration X g) s.mt ∧ n = 624 * g + s.index.toNat

theorem readsAt_of_eq {X : Nat → Word} {n : Nat} {s t : State} (h : readsAt X n s) (hmt : t.mt = s.mt)
    (hindex : t.index = s.index) (hvalid : t.valid = s.valid) : readsAt X n t := by
  simpa only [readsAt, hmt, hindex, hvalid] using h

/-- A usable state with the cursor at the end of the array is before word 624 of the sequence its array begins. -/
theorem readsAt_of_beginsWith {X : Nat → Word} {s : State} (hv : s.valid = true) (hi : s.index = 624)
    (h : beginsWith X s.mt) : readsAt X 624 s := by
  refine ⟨hv, by simp [hi], 0, ?_, by simp [hi]⟩
  simpa [beginsWith, fromGeneration] using h

/-- NEXT gives the word at the cursor, tempered, and moves on by one (R110). -/
theorem execNext_readsAt {X : Nat → Word} {n : Nat} {s : State} (hX : isTwistSequence X) (h : readsAt X n s) :
    ∃ t, execNext s = .next t ∧ t.response = ⟨temper (X n), 0⟩ ∧ readsAt X (n + 1) t := by
  obtain ⟨hv, hi, g, hmt, rfl⟩ := h
  by_cases hlt : s.index.toNat < 624
  · refine ⟨_, execNext_of_lt hv hlt, ?_, hv, ?_, g, hmt, ?_⟩
    · simp only [State.response, readWord_of_beginsWith hmt hlt, fromGeneration, okCode]
    · rw [toNat_succ_of_lt hlt]; omega
    · rw [toNat_succ_of_lt hlt]; omega
  · have hmt' := twist_beginsWith hX hmt
    have hplace : 624 * (g + 1) + 0 = 624 * g + s.index.toNat := by omega
    refine ⟨_, execNext_of_ge hv (by omega), ?_, hv, (by decide : 1 ≤ 624), g + 1, hmt', ?_⟩
    · simp only [State.response, readWord_of_beginsWith hmt' (by decide : 0 < 624), fromGeneration, okCode, hplace]
    · show _ = 624 * (g + 1) + 1
      omega

/-! Commands that keep the stream. -/

theorem encodeWord_of_decode_ok {w d : Word} {i : Instr} (h : decode w d = .ok i) : encodeWord i = w := by
  obtain ⟨j, rfl⟩ := exists_encodeWord_of_legalWord (legalWord_of_decode_ok h)
  rw [decode_encodeWord] at h
  cases h
  exact encodeWord_withData j d

theorem execPeek_goes_on (idx : BitVec 10) (s : State) : ∃ t, execPeek idx s = .next t := by
  unfold execPeek
  split_ifs
  · exact ⟨_, rfl⟩
  · exact ⟨_, rfl⟩
  · exact ⟨_, rfl⟩

/-- PEEK leaves the array, the cursor and VALID alone, in error too. -/
theorem execPeek_keeps {idx : BitVec 10} {s t : State} (h : execPeek idx s = .next t) :
    t.mt = s.mt ∧ t.index = s.index ∧ t.valid = s.valid := by
  obtain ⟨-, rfl⟩ | ⟨-, -, rfl⟩ | ⟨-, -, rfl⟩ := execPeek_next h <;> simp

/-- A command that keeps the stream and is no NEXT goes on and leaves the array, the cursor and VALID alone. -/
theorem transact_of_keepsStream {c : Word × Word} (hc : keepsStream c = true) (hne : c.1 ≠ 0x00000002) (s : State) :
    ∃ t, transact c.1 c.2 s = .next t ∧ t.mt = s.mt ∧ t.index = s.index ∧ t.valid = s.valid := by
  obtain ⟨i, hdec, htr⟩ | ⟨r, -, htr⟩ := transact_cases c.1 c.2 s
  · rw [htr]
    rw [keepsStream, hdec] at hc
    cases i with
    | next => exact absurd (encodeWord_of_decode_ok hdec).symm hne
    | temper v => exact ⟨_, rfl, rfl, rfl, rfl⟩
    | untemper v => exact ⟨_, rfl, rfl, rfl, rfl⟩
    | peek idx =>
      obtain ⟨t, ht⟩ := execPeek_goes_on idx s
      exact ⟨t, ht, execPeek_keeps ht⟩
    | seed | injStart | injWord | injCommit => cases hc
  · exact ⟨_, htr, by simp⟩

/-! The output stream. -/

/-- The responses to m NEXT commands from word n of X on. -/
def streamResponses (X : Nat → Word) (n m : Nat) : List Response :=
  (List.range m).map fun j => ⟨temper (X (n + j)), 0⟩

theorem streamResponses_succ (X : Nat → Word) (n m : Nat) :
    streamResponses X n (m + 1) = ⟨temper (X n), 0⟩ :: streamResponses X (n + 1) m := by
  simp [streamResponses, List.range_succ_eq_map, Function.comp_def, Nat.add_comm, Nat.add_left_comm]

theorem length_streamResponses (X : Nat → Word) (n m : Nat) : (streamResponses X n m).length = m := by
  simp [streamResponses]

/-- From word n on, the NEXTs of a command sequence that keeps the stream answer the words in order. -/
theorem runCommands_readsAt {X : Nat → Word} (hX : isTwistSequence X) {cs : List (Word × Word)}
    (hcs : ∀ c ∈ cs, keepsStream c = true) {n : Nat} {s : State} (h : readsAt X n s) :
    ∃ u rs m, runCommands cs s = some (u, rs) ∧ rs.length = cs.length ∧
      nextResponses cs rs = streamResponses X n m := by
  induction cs generalizing n s with
  | nil => exact ⟨s, [], 0, rfl, rfl, rfl⟩
  | cons c cs ih =>
    obtain ⟨hc, hcs⟩ := List.forall_mem_cons.mp hcs
    by_cases hnext : c.1 = 0x00000002
    · obtain ⟨t, ht, hresp, hat⟩ := execNext_readsAt hX h
      obtain ⟨u, rs, m, hrun, hlen, hout⟩ := ih hcs hat
      have htr : transact c.1 c.2 s = .next t := by rw [hnext, transact_next, ht]
      refine ⟨u, _, m + 1, runCommands_cons_some htr hrun, congrArg Nat.succ hlen, ?_⟩
      rw [nextResponses, if_pos hnext, hout, hresp, streamResponses_succ]
    · obtain ⟨t, htr, hmt, hindex, hvalid⟩ := transact_of_keepsStream hc hnext s
      obtain ⟨u, rs, m, hrun, hlen, hout⟩ := ih hcs (readsAt_of_eq h hmt hindex hvalid)
      refine ⟨u, _, m, runCommands_cons_some htr hrun, congrArg Nat.succ hlen, ?_⟩
      rw [nextResponses, if_neg hnext, hout]

/-- A command that leaves the engine before word 624 of X, followed by commands that keep the stream. -/
theorem outputStream_of_readsAt {X : Nat → Word} (hX : isTwistSequence X) {c : Word × Word} {cs : List (Word × Word)}
    (hcs : ∀ c ∈ cs, keepsStream c = true) {s t : State} (htr : transact c.1 c.2 s = .next t) (h : readsAt X 624 t) :
    ∃ u r rs, runCommands (c :: cs) s = some (u, r :: rs) ∧ rs.length = cs.length ∧
      nextResponses cs rs =
        (List.range (nextResponses cs rs).length).map fun j => ⟨temper (X (624 + j)), 0⟩ := by
  obtain ⟨u, rs, m, hrun, hlen, hout⟩ := runCommands_readsAt hX hcs h
  refine ⟨u, _, rs, runCommands_cons_some htr hrun, hlen, ?_⟩
  rw [hout, length_streamResponses, streamResponses]

/-! The two ways to begin a stream: SEED and INJ_COMMIT. -/

theorem transact_seed (v : Word) (s : State) : transact 0x00000001 v s = execSeed v s :=
  transact_encodeWord (.seed v) v s

theorem transact_injCommit (d : Word) (s : State) : transact 0x00000007 d s = execInjCommit s :=
  transact_encodeWord .injCommit d s

theorem beginsWith_expand {X : Nat → Word} {seed : Word} (h : beginsWithSeed X seed) (mt : StateArray) :
    beginsWith X (expand seed mt) := by
  obtain ⟨hzero, hsucc⟩ := h
  intro i hi
  rw [← readWord_stateIndex _ hi, readWord_expand seed mt hi]
  induction i with
  | zero => exact hzero
  | succ i ih => rw [hsucc i (by omega), ih (by omega)]; rfl

theorem execInjCommit_of_full {s : State} (hinj : s.inj = true) (hfull : s.injcnt = 624#10) :
    execInjCommit s = .next { s with
      inj := false, injcnt := 0, valid := true, index := 624, rspData := 0, rspErr := okCode } := by
  simp [execInjCommit, hinj, hfull, respond]

/-- Settles O46: SEED and INJ_COMMIT both leave the cursor before word 624, and NEXT gives the word at the cursor. -/
theorem outputStreamClosedForm : Obligations.OutputStreamClosedForm := by
  refine fun X hX cs hcs => ⟨fun seed s hbegin => ?_, fun d s hinj hfull hbegin => ?_⟩
  · exact outputStream_of_readsAt hX hcs (transact_seed seed s)
      (readsAt_of_beginsWith rfl rfl (beginsWith_expand hbegin s.mt))
  · exact outputStream_of_readsAt hX hcs ((transact_injCommit d s).trans (execInjCommit_of_full hinj hfull))
      (readsAt_of_beginsWith rfl rfl hbegin)

end Sys2Proof.Machine
end

section
/-! PROOF. Determinism after SEED (40_generator.md R109): ERR, CAUSE and what is no register of the engine have no
effect on any response. -/

namespace Sys2Proof.Machine

/-! Every command goes on while INJCNT is at most 624 (10_state.md R26), and keeps it so. -/

theorem execNext_goes_on (s : State) : ∃ t, execNext s = .next t := by
  unfold execNext
  split_ifs
  · exact ⟨_, rfl⟩
  · exact ⟨_, rfl⟩
  · exact ⟨_, rfl⟩

theorem execInjWord_goes_on (u : Bool) (d : Word) {s : State} (h : s.injcnt.toNat ≤ 624) :
    ∃ t, execInjWord u d s = .next t := by
  unfold execInjWord
  split_ifs with hinj hfull hlt
  · exact ⟨_, rfl⟩
  · exact ⟨_, rfl⟩
  · exact ⟨_, rfl⟩
  · exact absurd (BitVec.eq_of_toNat_eq (show s.injcnt.toNat = 624 by omega)) hfull

theorem execInjCommit_goes_on (s : State) : ∃ t, execInjCommit s = .next t := by
  unfold execInjCommit
  split_ifs
  · exact ⟨_, rfl⟩
  · exact ⟨_, rfl⟩
  · exact ⟨_, rfl⟩

theorem exec_goes_on (i : Instr) {s : State} (h : s.injcnt.toNat ≤ 624) : ∃ t, exec i s = .next t := by
  cases i with
  | next => exact execNext_goes_on s
  | injWord u d => exact execInjWord_goes_on u d h
  | injCommit => exact execInjCommit_goes_on s
  | peek idx => exact execPeek_goes_on idx s
  | seed | temper | untemper | injStart => exact ⟨_, rfl⟩

theorem transact_goes_on (w d : Word) {s : State} (h : s.injcnt.toNat ≤ 624) : ∃ t, transact w d s = .next t := by
  obtain ⟨i, -, htr⟩ | ⟨r, -, htr⟩ := transact_cases w d s
  · rw [htr]; exact exec_goes_on i h
  · exact ⟨_, htr⟩

theorem raised_injcnt_le (e : ErrorCode) {s : State} (h : s.injcnt.toNat ≤ 624) :
    (raised e s).injcnt.toNat ≤ 624 := by
  rw [raised_injcnt]
  split
  · decide
  · exact h

theorem exec_injcnt_le {i : Instr} {s t : State} (h : s.injcnt.toNat ≤ 624) (ht : exec i s = .next t) :
    t.injcnt.toNat ≤ 624 := by
  cases i with
  | seed v => rw [execSeed_next ht]; exact Nat.zero_le _
  | next =>
    obtain ⟨-, rfl⟩ | ⟨-, -, rfl⟩ | ⟨-, -, rfl⟩ := execNext_next ht
    · exact raised_injcnt_le _ h
    · exact h
    · exact h
  | temper v => rw [execTemper_next ht]; exact h
  | untemper v => rw [execUntemper_next ht]; exact h
  | injStart => rw [execInjStart_next ht]; exact Nat.zero_le _
  | injWord u v =>
    obtain ⟨-, rfl⟩ | ⟨-, -, rfl⟩ | ⟨-, hlt, rfl⟩ := execInjWord_next ht
    · exact raised_injcnt_le _ h
    · exact raised_injcnt_le _ h
    · exact (toNat_succ_of_lt hlt).trans_le hlt
  | injCommit =>
    obtain ⟨-, rfl⟩ | ⟨-, -, rfl⟩ | ⟨-, -, rfl⟩ := execInjCommit_next ht
    · exact raised_injcnt_le _ h
    · exact raised_injcnt_le _ h
    · exact Nat.zero_le _
  | peek idx =>
    obtain ⟨-, rfl⟩ | ⟨-, -, rfl⟩ | ⟨-, -, rfl⟩ := execPeek_next ht
    · exact raised_injcnt_le _ h
    · exact raised_injcnt_le _ h
    · exact h

theorem transact_injcnt_le {w d : Word} {s t : State} (h : s.injcnt.toNat ≤ 624) (ht : transact w d s = .next t) :
    t.injcnt.toNat ≤ 624 := by
  obtain ⟨i, -, htr⟩ | ⟨r, -, htr⟩ := transact_cases w d s
  · exact exec_injcnt_le h (htr ▸ ht)
  · rw [htr] at ht
    cases ht
    exact raised_injcnt_le _ h

/-! What a command shows depends on the registers without the error record. -/

/-- The registers on which a command's response can depend: ERR and CAUSE, the record of the last error, cleared. -/
def State.withoutRecord (s : State) : Engine := { s.engine with err := false, cause := 0 }

theorem withoutRecord_inj {s s' : State} : s.withoutRecord = s'.withoutRecord ↔
    s.mt = s'.mt ∧ s.index = s'.index ∧ s.valid = s'.valid ∧ s.inj = s'.inj ∧ s.injcnt = s'.injcnt := by
  simp [State.withoutRecord, State.engine]

/-- What an outcome shows: its registers without the error record, and its response. -/
def shown (o : Host.Outcome State Fault Refusal) : Option (Engine × Response) :=
  (nextState o).map fun t => (t.withoutRecord, t.response)

@[simp] theorem shown_next (t : State) : shown (.next t) = some (t.withoutRecord, t.response) := rfl

theorem shown_respond (v : Word) {s s' : State} (h : s.withoutRecord = s'.withoutRecord) :
    shown (respond v s) = shown (respond v s') :=
  congrArg (fun e => some (e, (⟨v, okCode⟩ : Response))) h

theorem raised_withoutRecord (e : ErrorCode) {s s' : State} (h : s.withoutRecord = s'.withoutRecord) :
    (raised e s).withoutRecord = (raised e s').withoutRecord := by
  obtain ⟨hmt, hindex, hvalid, hinj, hinjcnt⟩ := withoutRecord_inj.mp h
  simp [withoutRecord_inj, hmt, hindex, hvalid, hinj, hinjcnt]

theorem shown_raiseError (e : ErrorCode) {s s' : State} (h : s.withoutRecord = s'.withoutRecord) :
    shown (raiseError e s) = shown (raiseError e s') :=
  congrArg (fun r => some (r, (⟨0, errorCode e⟩ : Response))) (raised_withoutRecord e h)

theorem shown_exec (i : Instr) {s s' : State} (h : s.withoutRecord = s'.withoutRecord) :
    shown (exec i s) = shown (exec i s') := by
  obtain ⟨hmt, hindex, hvalid, hinj, hinjcnt⟩ := withoutRecord_inj.mp h
  cases i with
  | seed v => exact shown_respond 0 (by simp [withoutRecord_inj, hmt])
  | next =>
    simp only [exec, execNext, hmt, hindex, hvalid]
    split_ifs
    · exact shown_raiseError .notReady h
    · exact shown_respond _ (by simp [withoutRecord_inj, hvalid, hinj, hinjcnt])
    · exact shown_respond _ (by simp [withoutRecord_inj, hvalid, hinj, hinjcnt])
  | temper v => exact shown_respond _ h
  | untemper v => exact shown_respond _ h
  | injStart => exact shown_respond 0 (by simp [withoutRecord_inj, hmt, hindex])
  | injWord u v =>
    simp only [exec, execInjWord, hmt, hinj, hinjcnt]
    split_ifs
    · exact shown_raiseError .sequence h
    · exact shown_raiseError .length h
    · exact shown_respond _ (by simp [withoutRecord_inj, hindex, hvalid])
    · rfl
  | injCommit =>
    simp only [exec, execInjCommit, hinj, hinjcnt]
    split_ifs
    · exact shown_raiseError .sequence h
    · exact shown_raiseError .length h
    · exact shown_respond 0 (by simp [withoutRecord_inj, hmt])
  | peek idx =>
    simp only [exec, execPeek, hmt, hvalid]
    split_ifs
    · exact shown_raiseError .notReady h
    · exact shown_respond _ h
    · exact shown_raiseError .range h

theorem shown_transact (w d : Word) {s s' : State} (h : s.withoutRecord = s'.withoutRecord) :
    shown (transact w d s) = shown (transact w d s') := by
  cases hdec : decode w d with
  | ok i => simpa only [transact, hdec] using shown_exec i h
  | error r => simpa only [transact, hdec] using shown_raiseError .illegal h

/-! Two engines in step. -/

/-- Commands from two states that agree but for the error record give the same responses (R109). -/
theorem runCommands_same_responses (cs : List (Word × Word)) {s s' : State} (hcnt : s.injcnt.toNat ≤ 624)
    (h : s.withoutRecord = s'.withoutRecord) :
    ∃ u u' rs, runCommands cs s = some (u, rs) ∧ runCommands cs s' = some (u', rs) ∧ rs.length = cs.length := by
  induction cs generalizing s s' with
  | nil => exact ⟨s, s', [], rfl, rfl, rfl⟩
  | cons c cs ih =>
    have hcnt' : s'.injcnt.toNat ≤ 624 := by
      obtain ⟨-, -, -, -, hinjcnt⟩ := withoutRecord_inj.mp h
      rwa [← hinjcnt]
    obtain ⟨t, ht⟩ := transact_goes_on c.1 c.2 hcnt
    obtain ⟨t', ht'⟩ := transact_goes_on c.1 c.2 hcnt'
    have hshown := shown_transact c.1 c.2 h
    rw [ht, ht', shown_next, shown_next, Option.some_inj, Prod.mk.injEq] at hshown
    obtain ⟨hregs, hresp⟩ := hshown
    obtain ⟨u, u', rs, hrun, hrun', hlen⟩ := ih (transact_injcnt_le hcnt ht) hregs
    refine ⟨u, u', t.response :: rs, runCommands_cons_some ht hrun, ?_, congrArg Nat.succ hlen⟩
    rw [hresp]
    exact runCommands_cons_some ht' hrun'

/-- SEED writes every register but the error record, the array from the seed alone (R105). -/
theorem execSeed_withoutRecord {v : Word} {s t : State} (h : execSeed v s = .next t) (mt : StateArray) :
    t.withoutRecord = ⟨expand v mt, 624, true, false, 0, false, 0⟩ := by
  rw [execSeed_next h, expand_indep v mt s.mt]
  rfl

/-- Settles O47: both SEEDs respond 0 and leave states that agree but for the error record. -/
theorem seedDeterminesEveryResponse : Obligations.SeedDeterminesEveryResponse := by
  intro seed cs s s'
  obtain ⟨t, ht⟩ : ∃ t, execSeed seed s = .next t := ⟨_, rfl⟩
  obtain ⟨t', ht'⟩ : ∃ t', execSeed seed s' = .next t' := ⟨_, rfl⟩
  have hcnt : t.injcnt.toNat ≤ 624 := by rw [execSeed_next ht]; exact Nat.zero_le _
  have hregs : t.withoutRecord = t'.withoutRecord :=
    (execSeed_withoutRecord ht s.mt).trans (execSeed_withoutRecord ht' s.mt).symm
  have hresp : t.response = t'.response := by simp only [State.response, execSeed_next ht, execSeed_next ht']
  obtain ⟨u, u', rs, hrun, hrun', hlen⟩ := runCommands_same_responses cs hcnt hregs
  refine ⟨u, u', t.response :: rs, runCommands_cons_some ((transact_seed seed s).trans ht) hrun, ?_,
    congrArg Nat.succ hlen⟩
  rw [hresp]
  exact runCommands_cons_some ((transact_seed seed s').trans ht') hrun'

end Sys2Proof.Machine
end

section
/-! PROOF. The errors (60_exceptions.md R203 to R208): which command raises which error in which state, in the order
of R207, and what an error leaves as it was. -/

namespace Sys2Proof.Machine

/-! When each command raises its error. -/

theorem execNext_of_not_valid {s : State} (hv : s.valid = false) : execNext s = .next (raised .notReady s) :=
  if_pos hv

theorem execPeek_of_not_valid {idx : BitVec 10} {s : State} (hlt : idx.toNat < 624) (hv : s.valid = false) :
    execPeek idx s = .next (raised .notReady s) := by
  rw [execPeek, dif_pos (by rwa [peekIndex_eq]), if_pos hv, raiseError]

theorem execPeek_of_ge {idx : BitVec 10} (hge : 624 ≤ idx.toNat) (s : State) :
    execPeek idx s = .next (raised .range s) := by
  rw [execPeek, dif_neg (by rw [peekIndex_eq]; omega), raiseError]

theorem execInjWord_of_not_inj {s : State} (hinj : s.inj = false) (u : Bool) (d : Word) :
    execInjWord u d s = .next (raised .sequence s) := if_pos hinj

theorem execInjWord_of_full {s : State} (hinj : s.inj = true) (hfull : s.injcnt = 624#10) (u : Bool) (d : Word) :
    execInjWord u d s = .next (raised .length s) := by
  rw [execInjWord, if_neg (by simp [hinj]), if_pos hfull, raiseError]

theorem execInjCommit_of_not_inj {s : State} (hinj : s.inj = false) :
    execInjCommit s = .next (raised .sequence s) := if_pos hinj

theorem execInjCommit_of_not_full {s : State} (hinj : s.inj = true) (hcnt : s.injcnt ≠ 624#10) :
    execInjCommit s = .next (raised .length s) := by
  rw [execInjCommit, if_neg (by simp [hinj]), if_pos hcnt, raiseError]

/-! What a command that ends in an error has done. -/

/-- A response with an error code comes from `raise`, and LENGTH from an open injection only. -/
theorem exec_error {i : Instr} {s t : State} (h : exec i s = .next t) (herr : t.rspErr ≠ 0) :
    ∃ e, t = raised e s ∧ (e = .length → s.inj = true) := by
  cases i with
  | seed v => rw [execSeed_next h] at herr; exact absurd rfl herr
  | next =>
    obtain ⟨-, rfl⟩ | ⟨-, _, rfl⟩ | ⟨-, -, rfl⟩ := execNext_next h
    · exact ⟨.notReady, rfl, nofun⟩
    · exact absurd rfl herr
    · exact absurd rfl herr
  | temper v => rw [execTemper_next h] at herr; exact absurd rfl herr
  | untemper v => rw [execUntemper_next h] at herr; exact absurd rfl herr
  | injStart => rw [execInjStart_next h] at herr; exact absurd rfl herr
  | injWord u v =>
    obtain ⟨-, rfl⟩ | ⟨hinj, -, rfl⟩ | ⟨-, _, rfl⟩ := execInjWord_next h
    · exact ⟨.sequence, rfl, nofun⟩
    · exact ⟨.length, rfl, fun _ => hinj⟩
    · exact absurd rfl herr
  | injCommit =>
    obtain ⟨-, rfl⟩ | ⟨hinj, -, rfl⟩ | ⟨-, -, rfl⟩ := execInjCommit_next h
    · exact ⟨.sequence, rfl, nofun⟩
    · exact ⟨.length, rfl, fun _ => hinj⟩
    · exact absurd rfl herr
  | peek idx =>
    obtain ⟨-, rfl⟩ | ⟨-, -, rfl⟩ | ⟨-, _, rfl⟩ := execPeek_next h
    · exact ⟨.range, rfl, nofun⟩
    · exact ⟨.notReady, rfl, nofun⟩
    · exact absurd rfl herr

theorem transact_error {w d : Word} {s t : State} (h : transact w d s = .next t) (herr : t.rspErr ≠ 0) :
    ∃ e, t = raised e s ∧ (e = .length → s.inj = true) := by
  obtain ⟨i, -, htr⟩ | ⟨r, -, htr⟩ := transact_cases w d s
  · exact exec_error (htr ▸ h) herr
  · rw [htr] at h
    cases h
    exact ⟨.illegal, rfl, nofun⟩

theorem errorCode_eq_four_iff (e : ErrorCode) : errorCode e = 4 ↔ e = .length := by
  cases e <;> decide

/-- Settles O35: the command has raised some error e, and when e is LENGTH the injection was open, where the invariant
has VALID = 0. -/
theorem errorEffect : Obligations.ErrorEffect := by
  intro w d s t hInv h herr
  obtain ⟨-, -, hexclusive, -⟩ := hInv
  obtain ⟨e, rfl, hopen⟩ := transact_error h herr
  refine ⟨raised_mt e s, raised_index e s, raised_valid e s, rfl, rfl, rfl, fun hne => ?_, fun hlength => ?_⟩
  · have he : e ≠ .length := mt (errorCode_eq_four_iff e).mpr hne
    simp [he]
  · obtain rfl : e = .length := (errorCode_eq_four_iff e).mp hlength
    exact ⟨rfl, rfl, hexclusive (hopen rfl)⟩

/-! The errors one by one (R203 to R206). -/

/-- Settles O20: NEXT and PEEK of a word that exists both raise NOT_READY. -/
theorem notReadyWithoutAState : Obligations.NotReadyWithoutAState := fun _ hv =>
  ⟨execNext_of_not_valid hv, fun _ hlt => execPeek_of_not_valid hlt hv⟩

/-- Settles O31: INJ_WORD and INJ_COMMIT both test INJ first. -/
theorem sequenceWithoutAnInjection : Obligations.SequenceWithoutAnInjection := fun _ hinj =>
  ⟨execInjWord_of_not_inj hinj, execInjCommit_of_not_inj hinj⟩

/-- LENGTH does not write VALID, so from VALID = 0 the closed injection leaves it 0 (R208). -/
theorem raised_length_of_not_valid {s : State} (hv : s.valid = false) : raised .length s =
    { s with inj := false, injcnt := 0, valid := false, err := true, cause := 4, rspData := 0, rspErr := 4 } := by
  change raised .length s = { raised .length s with valid := false }
  rw [← hv]
  rfl

/-- Settles O32: a wrong count raises LENGTH, and an open injection has VALID = 0 by the invariant. -/
theorem lengthOnAWrongCount : Obligations.LengthOnAWrongCount := by
  intro s hInv hinj
  obtain ⟨-, -, hexclusive, -⟩ := hInv
  rw [← raised_length_of_not_valid (hexclusive hinj)]
  refine ⟨fun hfull => execInjWord_of_full hinj hfull, fun hlt => execInjCommit_of_not_full hinj fun hfull => ?_⟩
  simp [hfull] at hlt

/-- Settles O33: PEEK tests its index before anything else. -/
theorem rangeOnAnAbsentIndex : Obligations.RangeOnAnAbsentIndex := fun _ s hge => execPeek_of_ge hge s

/-! The order of the errors (R207). -/

/-- A command that raises e responds with the code of e. -/
theorem rspErr_of_raised {o : Host.Outcome State Fault Refusal} {e : ErrorCode} {s t : State}
    (hraised : o = .next (raised e s)) (h : o = .next t) : t.rspErr = errorCode e := by
  rw [hraised] at h
  cases h
  rfl

/-- NEXT succeeds or raises NOT_READY. -/
theorem execNext_rspErr {s t : State} (h : execNext s = .next t) : t.rspErr = 0 ∨ t.rspErr = 2 := by
  obtain ⟨-, rfl⟩ | ⟨-, -, rfl⟩ | ⟨-, -, rfl⟩ := execNext_next h
  · exact .inr rfl
  · exact .inl rfl
  · exact .inl rfl

/-- Settles O34: each command raises the earlier error of R207 whatever the condition of the later one. -/
theorem errorPriority : Obligations.ErrorPriority := by
  refine fun s t => ⟨fun w d hw h => ?illegal, fun idx hge _ h => ?peek, fun u d hinj _ h => ?injWord,
    fun hinj _ h => ?injCommit, execNext_rspErr⟩
  case illegal => exact rspErr_of_raised (transact_of_not_legalWord hw d s) h
  case peek => exact rspErr_of_raised (execPeek_of_ge hge s) h
  case injWord => exact rspErr_of_raised (execInjWord_of_not_inj hinj u d) h
  case injCommit => exact rspErr_of_raised (execInjCommit_of_not_inj hinj) h

end Sys2Proof.Machine
end

section
/-! PROOF. The reset edge (70_reset_and_hazards.md R240 to R242): the step it is, the STATUS it leaves, and the ports of
the phase it leads to. -/

namespace Sys2Proof.Machine

/-- R240: `rst` = 1 overrides every phase of the handshake. -/
theorem clockEdge_of_rst {p : PortIn} (h : p.rst = true) (s : State) : clockEdge p s = .next (resetEdge s) :=
  if_pos h

theorem step_of_rst {s : State} (h : (sampledPins s).rst = true) : step s = .next (resetEdge (pastSample s)) :=
  (step_eq s).trans (clockEdge_of_rst h (pastSample s))

/-- R240: of the fields of STATUS only INDEX is not 0 after reset. -/
theorem statusWord_resetEdge (s : State) : statusWord (resetEdge s) = 0x00027000 := by
  simp [statusWord, flagWord]

/-! The ports in reset, whatever `rst` is after the edge. -/

theorem cmdReady_of_inReset {s : State} (h : s.phase = .inReset) (r : Bool) : cmdReady r s = false := by
  simp [cmdReady, h]

theorem rspValid_of_inReset {s : State} (h : s.phase = .inReset) (r : Bool) : rspValid r s = false := by
  simp [rspValid, h]

theorem outstanding_of_inReset {s : State} (h : s.phase = .inReset) : s.outstanding = false := by
  simp [State.outstanding, h]

/-- R241: no response is valid while `rst` is 1. -/
theorem rspValid_of_rst (s : State) : rspValid true s = false :=
  Bool.false_and _

/-- Settles O12: the step is the reset edge past the sample, which leads from every phase to the one in reset. -/
theorem resetEdge_spec : Obligations.ResetEdge := by
  intro s hrst
  have hphase : (resetEdge (pastSample s)).phase = .inReset := resetEdge_phase _
  refine ⟨rspValid_of_rst s, resetEdge (pastSample s), step_of_rst hrst, ?_⟩
  simp [statusWord_resetEdge, cmdReady_of_inReset hphase, rspValid_of_inReset hphase, outstanding_of_inReset hphase]

end Sys2Proof.Machine
end

section
/-! PROOF. Decoding what the encoder writes (30_encoding.md R75, R82, R84): the encoder's data operand is the command's
own, so the round trip is `decode_encodeWord` at that operand; the words of the tables are encoded words. -/

namespace Sys2Proof.Machine

/-! The round trip. -/

/-- The encoder's data operand is the command's own. -/
theorem withData_encodeData (i : Instr) : withData i (encodeData i) = i := by
  cases i <;> rfl

/-- Settles O3: decoding an encoded word puts the data operand in place, and the encoder's is the command's own. -/
theorem decodeOfEncodeIsTheCommand : Obligations.DecodeOfEncodeIsTheCommand := fun i => by
  rw [decode_encodeWord, withData_encodeData]

/-! The words of R82 and R84. -/

/-- Settles O2: each word of the table is `encodeWord` of its command. -/
theorem tableWordsDecode : Obligations.TableWordsDecode := fun d =>
  ⟨decode_encodeWord (.seed d) d, decode_encodeWord .next d, decode_encodeWord (.temper d) d,
    decode_encodeWord (.untemper d) d, decode_encodeWord .injStart d, decode_encodeWord (.injWord false d) d,
    decode_encodeWord (.injWord true d) d, decode_encodeWord .injCommit d, decode_encodeWord (.peek 1023) d⟩

/-- Settles O1: the legal examples are encoded words; each illegal one fails the named check, and PEEK 700 is out of
range. -/
theorem encodingExamples : Obligations.EncodingExamples :=
  ⟨⟨rfl, decode_encodeWord (.peek 1)⟩, ⟨rfl, decode_encodeWord (.peek 623)⟩, ⟨rfl, decode_encodeWord (.peek 700)⟩,
    fun s => execPeek_of_ge (by decide) s, ⟨rfl, decode_encodeWord (.injWord true 0x12345678) _⟩,
    fun _ => rfl, fun _ => rfl, fun _ => rfl, fun _ => rfl⟩

end Sys2Proof.Machine
end

section
/-! PROOF. The commands one by one (40_generator.md R105 to R107, 41_recoverer.md R142 to R145, 42_readback.md R170):
each statement is the command's equation in its case, with the words of `Expand` and `Twist` read off by index. -/

namespace Sys2Proof.Machine

/-! SEED. -/

theorem getElem_expand (seed : Word) (mt : StateArray) {i : Nat} (h : i < 624) :
    (expand seed mt)[i] = expandWord seed i := by
  rw [← readWord_stateIndex _ h, readWord_expand seed mt h]

/-- Settles O17: the new array is `Expand`'s, whose words follow the recurrence of R101. -/
theorem seedExpandsAndArms : Obligations.SeedExpandsAndArms := by
  refine fun v s => ⟨expand v s.mt, rfl, getElem_expand v s.mt (by omega), fun i h => ?_⟩
  rw [getElem_expand v s.mt (by omega), getElem_expand v s.mt (by omega)]
  rfl

/-! NEXT. -/

/-- Settles O18: below 624 NEXT reads the word at the cursor. -/
theorem nextReadsAtTheCursor : Obligations.NextReadsAtTheCursor := fun s h hv => by
  rw [← readWord_stateIndex s.mt h]
  exact execNext_of_lt hv h

/-- The word a pass writes, with the addition of R102 as its pseudocode has it. -/
theorem twistWord_eq_mixBits (cur succ mid : Word) :
    twistWord cur succ mid = mid ^^^ mixBits ((cur &&& 0x80000000) + (succ &&& 0x7FFFFFFF)) := by
  have hadd : (cur &&& 0x80000000) + (succ &&& 0x7FFFFFFF) = (cur &&& 0x80000000) ||| (succ &&& 0x7FFFFFFF) :=
    masked_add_eq_or cur succ
  rw [twistWord_eq_seqSucc, seqSucc, hadd]

theorem getElem_twist_low (mt : StateArray) {i : Nat} (h : i < 227) :
    (twist mt)[i] = twistWord mt[i] mt[i + 1] mt[i + 397] := by
  have key := readWord_twist_low mt h
  rwa [readWord_stateIndex, readWord_stateIndex, readWord_stateIndex, readWord_stateIndex] at key

theorem getElem_twist_high (mt : StateArray) {i : Nat} (h : i + 227 < 623) :
    (twist mt)[i + 227] = twistWord mt[i + 227] mt[i + 228] (twist mt)[i] := by
  have key := readWord_twist_high mt (Nat.le_add_left 227 i) h
  rwa [Nat.add_sub_cancel, readWord_stateIndex, readWord_stateIndex, readWord_stateIndex, readWord_stateIndex] at key

theorem getElem_twist_last (mt : StateArray) :
    (twist mt)[623] = twistWord mt[623] (twist mt)[0] (twist mt)[396] := by
  have key := readWord_twist_last mt
  rwa [readWord_stateIndex _ (by decide), readWord_stateIndex _ (by decide), readWord_stateIndex _ (by decide),
    readWord_stateIndex _ (by decide)] at key

/-- Settles O19: NEXT twists, and each pass reads old words where its index has not been passed and new ones where it
has. -/
theorem nextTwistsAtTheEnd : Obligations.NextTwistsAtTheEnd := by
  refine fun s hge hv => ⟨twist s.mt, ?_, fun i h => ?_, fun i h => ?_, ?_⟩
  · rw [← readWord_stateIndex (twist s.mt) (by decide)]
    exact execNext_of_ge hv hge
  · rw [getElem_twist_low s.mt h, twistWord_eq_mixBits]
  · rw [getElem_twist_high s.mt h, twistWord_eq_mixBits]
  · rw [getElem_twist_last, twistWord_eq_mixBits]
    rfl

/-! The injection. -/

/-- Settles O26: INJ_START tests nothing, so its one outcome is its definition. -/
theorem injStartOpensAnInjection : Obligations.InjStartOpensAnInjection := fun _ => rfl

/-- Settles O27: INJ_WORD writes at INJCNT, and a write leaves every other word alone. -/
theorem injWordWritesOneWord : Obligations.InjWordWritesOneWord := by
  refine fun u d s h hinj => ⟨injectedWord u d, writeWord s.mt ⟨s.injcnt.toNat, h⟩ (injectedWord u d),
    execInjWord_of_lt u d hinj h, fun hu => by simp [injectedWord, hu], fun hu => by simp [injectedWord, hu],
    readWord_writeWord_self _ _ _, fun j hj hne => ?_⟩
  exact readWord_writeWord_ne s.mt (j := ⟨j, hj⟩) (fun e => hne (congrArg Fin.val e).symm) _

theorem execInjWord_of_gt (u : Bool) (d : Word) {s : State} (hinj : s.inj = true) (hgt : 624 < s.injcnt.toNat) :
    execInjWord u d s = .fault .stateIndexAbsent := by
  have hne : s.injcnt ≠ 624#10 := fun hfull => by simp [hfull] at hgt
  rw [execInjWord, if_neg (by simp [hinj]), if_neg hne, dif_neg (by omega)]

/-- Settles O28: past 624 there is no word to write. -/
theorem injWordStopsPastTheArray : Obligations.InjWordStopsPastTheArray := fun u d _ hinj hgt =>
  execInjWord_of_gt u d hinj hgt

/-- Settles O29: with exactly 624 words INJ_COMMIT passes both its tests. -/
theorem injCommitArmsTheState : Obligations.InjCommitArmsTheState := fun _ hinj hfull =>
  execInjCommit_of_full hinj hfull

/-! PEEK, and the three commands that only read. -/

theorem execPeek_of_lt {idx : BitVec 10} {s : State} (hlt : idx.toNat < 624) (hv : s.valid = true) :
    execPeek idx s = .next { s with rspData := s.mt[idx.toNat], rspErr := okCode } := by
  simp [execPeek, hlt, hv, respond, readWord]

/-- Settles O30: PEEK passes both its tests and reads. -/
theorem peekReadsTheRawWord : Obligations.PeekReadsTheRawWord := fun _ _ hlt hv => execPeek_of_lt hlt hv

/-- PEEK's answer is chosen by its index and VALID, neither of which PEEK writes. -/
theorem execPeek_idempotent {idx : BitVec 10} {s t : State} (h : execPeek idx s = .next t) :
    t.mt = s.mt ∧ t.index = s.index ∧ t.valid = s.valid ∧ t.inj = s.inj ∧ t.injcnt = s.injcnt ∧
      execPeek idx t = .next t := by
  obtain ⟨hge, rfl⟩ | ⟨hlt, hv, rfl⟩ | ⟨hv, hlt, rfl⟩ := execPeek_next h
  · exact ⟨rfl, rfl, rfl, rfl, rfl, execPeek_of_ge hge _⟩
  · exact ⟨rfl, rfl, rfl, rfl, rfl, execPeek_of_not_valid hlt hv⟩
  · exact ⟨rfl, rfl, rfl, rfl, rfl, execPeek_of_lt hlt hv⟩

/-- Settles O53: TEMPER and UNTEMPER write only the response, which depends on the operand alone. -/
theorem readsAreIdempotent : Obligations.ReadsAreIdempotent := by
  rintro i s t (⟨d, rfl⟩ | ⟨d, rfl⟩ | ⟨idx, rfl⟩) h
  · rw [execTemper_next h]
    exact ⟨rfl, rfl, rfl, rfl, rfl, rfl⟩
  · rw [execUntemper_next h]
    exact ⟨rfl, rfl, rfl, rfl, rfl, rfl⟩
  · exact execPeek_idempotent h

end Sys2Proof.Machine
end

section
/-! PROOF. What a command can do when it goes on (60_exceptions.md R200, R201, R209; 10_state.md R33): raise one error,
under that error's condition, or succeed, leaving everything but its own registers and the response alone. -/

namespace Sys2Proof.Machine

/-- Which command raises which error in which state (60_exceptions.md R202 to R206). -/
def Raises (i : Instr) (s : State) : ErrorCode → Prop
  | .illegal => False
  | .notReady => s.valid = false ∧ (i = .next ∨ ∃ idx, i = .peek idx)
  | .sequence => s.inj = false ∧ ((∃ u d, i = .injWord u d) ∨ i = .injCommit)
  | .length => s.inj = true ∧
      (((∃ u d, i = .injWord u d) ∧ s.injcnt = 624#10) ∨ (i = .injCommit ∧ s.injcnt ≠ 624#10))
  | .range => ∃ idx : BitVec 10, i = .peek idx ∧ 624 ≤ idx.toNat

/-- A success: code 0, and no field moves but the array, the four registers a command may write and the response. -/
def Succeeds (s t : State) : Prop :=
  t = { s with mt := t.mt, index := t.index, valid := t.valid, inj := t.inj, injcnt := t.injcnt,
               rspData := t.rspData, rspErr := okCode }

theorem exec_outcome {i : Instr} {s t : State} (h : exec i s = .next t) :
    (∃ e, Raises i s e ∧ t = raised e s) ∨ Succeeds s t := by
  cases i with
  | seed v => exact .inr (by rw [execSeed_next h]; rfl)
  | next =>
    obtain ⟨hv, rfl⟩ | ⟨-, -, rfl⟩ | ⟨-, -, rfl⟩ := execNext_next h
    · exact .inl ⟨.notReady, ⟨hv, .inl rfl⟩, rfl⟩
    · exact .inr rfl
    · exact .inr rfl
  | temper v => exact .inr (by rw [execTemper_next h]; rfl)
  | untemper v => exact .inr (by rw [execUntemper_next h]; rfl)
  | injStart => exact .inr (by rw [execInjStart_next h]; rfl)
  | injWord u v =>
    obtain ⟨hinj, rfl⟩ | ⟨hinj, hfull, rfl⟩ | ⟨-, -, rfl⟩ := execInjWord_next h
    · exact .inl ⟨.sequence, ⟨hinj, .inl ⟨u, v, rfl⟩⟩, rfl⟩
    · exact .inl ⟨.length, ⟨hinj, .inl ⟨⟨u, v, rfl⟩, hfull⟩⟩, rfl⟩
    · exact .inr rfl
  | injCommit =>
    obtain ⟨hinj, rfl⟩ | ⟨hinj, hne, rfl⟩ | ⟨-, -, rfl⟩ := execInjCommit_next h
    · exact .inl ⟨.sequence, ⟨hinj, .inr rfl⟩, rfl⟩
    · exact .inl ⟨.length, ⟨hinj, .inr ⟨rfl, hne⟩⟩, rfl⟩
    · exact .inr rfl
  | peek idx =>
    obtain ⟨hge, rfl⟩ | ⟨-, hv, rfl⟩ | ⟨-, -, rfl⟩ := execPeek_next h
    · exact .inl ⟨.range, ⟨idx, rfl, hge⟩, rfl⟩
    · exact .inl ⟨.notReady, ⟨hv, .inr ⟨idx, rfl⟩⟩, rfl⟩
    · exact .inr rfl

/-- A command of any word raises an error or succeeds. -/
theorem transact_outcome {w d : Word} {s t : State} (h : transact w d s = .next t) :
    (∃ e, t = raised e s) ∨ Succeeds s t := by
  obtain ⟨i, -, htr⟩ | ⟨r, -, htr⟩ := transact_cases w d s
  · exact (exec_outcome (htr ▸ h)).imp_left fun ⟨e, _, ht⟩ => ⟨e, ht⟩
  · rw [htr] at h
    cases h
    exact .inl ⟨.illegal, rfl⟩

/-! What a success leaves alone. -/

section
variable {s t : State} (h : Succeeds s t)
include h

theorem Succeeds.rspErr : t.rspErr = 0 := congrArg State.rspErr h
theorem Succeeds.err : t.err = s.err := Eq.trans (congrArg State.err h) rfl
theorem Succeeds.cause : t.cause = s.cause := Eq.trans (congrArg State.cause h) rfl
theorem Succeeds.phase : t.phase = s.phase := Eq.trans (congrArg State.phase h) rfl
theorem Succeeds.taken : t.taken = s.taken := Eq.trans (congrArg State.taken h) rfl
theorem Succeeds.inputs : t.inputs = s.inputs := Eq.trans (congrArg State.inputs h) rfl
theorem Succeeds.lat : t.lat = s.lat := Eq.trans (congrArg State.lat h) rfl
theorem Succeeds.edges : t.edges = s.edges := Eq.trans (congrArg State.edges h) rfl

end

theorem errorCode_ne_zero (e : ErrorCode) : errorCode e ≠ 0 := by
  cases e <;> decide

theorem errorCode_toNat_le (e : ErrorCode) : (errorCode e).toNat ≤ 5 := by
  cases e <;> decide

theorem errorCode_injective {e e' : ErrorCode} (h : errorCode e = errorCode e') : e = e' := by
  revert h
  cases e <;> cases e' <;> decide

/-- No command touches the handshake, the host's record, its inputs, the latencies or the edge count. -/
theorem transact_frame {w d : Word} {s t : State} (h : transact w d s = .next t) :
    t.phase = s.phase ∧ t.taken = s.taken ∧ t.inputs = s.inputs ∧ t.lat = s.lat ∧ t.edges = s.edges := by
  obtain ⟨e, rfl⟩ | hok := transact_outcome h
  · simp
  · exact ⟨hok.phase, hok.taken, hok.inputs, hok.lat, hok.edges⟩

/-- ERR and CAUSE after a command follow from those before it and the response (R209). -/
theorem transact_record {w d : Word} {s t : State} (h : transact w d s = .next t) :
    (t.rspErr ≠ 0 → t.err = true ∧ t.cause = t.rspErr) ∧ (t.rspErr = 0 → t.err = s.err ∧ t.cause = s.cause) := by
  obtain ⟨e, rfl⟩ | hok := transact_outcome h
  · exact ⟨fun _ => ⟨rfl, rfl⟩, fun h0 => absurd h0 (errorCode_ne_zero e)⟩
  · exact ⟨fun hne => absurd hok.rspErr hne, fun _ => ⟨hok.err, hok.cause⟩⟩

/-! The codes (R201). -/

/-- A response with e's code comes from raising e. -/
theorem raises_of_rspErr {i : Instr} {s t : State} (h : exec i s = .next t) {e : ErrorCode}
    (herr : t.rspErr = errorCode e) : Raises i s e := by
  obtain ⟨e', hraises, rfl⟩ | hok := exec_outcome h
  · rwa [← errorCode_injective herr]
  · exact absurd (herr.symm.trans hok.rspErr) (errorCode_ne_zero e)

theorem transact_rspErr_le {w d : Word} {s t : State} (h : transact w d s = .next t) : t.rspErr.toNat ≤ 5 := by
  obtain ⟨e, rfl⟩ | hok := transact_outcome h
  · exact errorCode_toNat_le e
  · rw [hok.rspErr]
    exact Nat.zero_le 5

/-- Code 1 is the answer to the words that are no command, and to no others (R202). -/
theorem transact_rspErr_eq_one_iff {w d : Word} {s t : State} (h : transact w d s = .next t) :
    t.rspErr = 1 ↔ ¬ legalWord w := by
  refine ⟨fun herr hlegal => ?_, fun hnot => rspErr_of_raised (transact_of_not_legalWord hnot d s) h⟩
  obtain ⟨i, rfl⟩ := exists_encodeWord_of_legalWord hlegal
  rw [transact_encodeWord] at h
  exact raises_of_rspErr h (e := .illegal) herr

/-- Settles O37: each code is one error's, and a command raises an error only under its condition. -/
theorem errorCodesAndTheirRaisers : Obligations.ErrorCodesAndTheirRaisers := by
  refine ⟨fun w d s t h => ⟨transact_rspErr_le h, transact_rspErr_eq_one_iff h⟩, fun i s t h => ?_⟩
  exact ⟨raises_of_rspErr h (e := .notReady), raises_of_rspErr h (e := .sequence), raises_of_rspErr h (e := .length),
    raises_of_rspErr h (e := .range)⟩

/-! The writers of each register (10_state.md R33). -/

/-- Settles O38: in each outcome of a command the fields it names are the only ones that move. -/
theorem registerWriters : Obligations.RegisterWriters := by
  intro i s t h
  cases i with
  | seed v => rw [execSeed_next h]; simp
  | next =>
    obtain ⟨-, rfl⟩ | ⟨-, _, rfl⟩ | ⟨hv, hge, rfl⟩ := execNext_next h
    · simp
    · simp
    · simp [hv, hge]
  | temper v => rw [execTemper_next h]; simp
  | untemper v => rw [execUntemper_next h]; simp
  | injStart => rw [execInjStart_next h]; simp
  | injWord u v =>
    obtain ⟨-, rfl⟩ | ⟨-, -, rfl⟩ | ⟨-, _, rfl⟩ := execInjWord_next h
    · simp
    · simp [errorCode]
    · simp
  | injCommit =>
    obtain ⟨-, rfl⟩ | ⟨-, -, rfl⟩ | ⟨-, -, rfl⟩ := execInjCommit_next h
    · simp
    · simp
    · simp
  | peek idx =>
    obtain ⟨-, rfl⟩ | ⟨-, -, rfl⟩ | ⟨-, _, rfl⟩ := execPeek_next h
    · simp
    · simp
    · simp

end Sys2Proof.Machine
end

section
/-! PROOF. The edges (30_encoding.md R70 to R73, 70_reset_and_hazards.md R240 to R244): what one edge does in each phase
of the handshake, then what any edge can do: reset, accept a command, or leave the registers alone. -/

namespace Sys2Proof.Machine

/-! One edge without reset, phase by phase. -/

theorem clockEdge_of_accepts {p : PortIn} {s : State} (hrst : p.rst = false) (hphase : s.phase = .ready)
    (hvalid : p.cmdValid = true) : clockEdge p s = acceptCommand p.cmdWord p.cmdData s := by
  simp [clockEdge, hrst, hphase, hvalid]

section
variable {s : State} (hrst : (sampledPins s).rst = false)
include hrst

theorem step_of_accepts (h : s.phase = .ready) (hvalid : (sampledPins s).cmdValid = true) :
    step s = acceptCommand (sampledPins s).cmdWord (sampledPins s).cmdData (pastSample s) :=
  clockEdge_of_accepts hrst h hvalid

theorem step_of_inReset (h : s.phase = .inReset) :
    step s = .next { pastSample s with phase := wakeIn s.lat.reset } := by
  simp [step_eq, clockEdge, hrst, h]

theorem step_of_waking {left : Nat} (h : s.phase = .waking left) :
    step s = .next { pastSample s with phase := wakeIn left } := by
  simp [step_eq, clockEdge, hrst, h]

theorem step_of_executing {left : Nat} (h : s.phase = .executing left) :
    step s = .next { pastSample s with phase := respondIn left } := by
  simp [step_eq, clockEdge, hrst, h]

theorem step_of_held (h : s.phase = .responding) (hready : (sampledPins s).rspReady = false) :
    step s = .next (pastSample s) := by
  simp [step_eq, clockEdge, hrst, h, hready]

theorem step_of_taken (h : s.phase = .responding) (hready : (sampledPins s).rspReady = true) :
    step s = .next (takeResponse (pastSample s)) := by
  simp [step_eq, clockEdge, hrst, h, hready]

end

/-! The views of the handshake. -/

theorem cmdReady_false_iff (s : State) : cmdReady false s = true ↔ s.phase = .ready := by
  simp [cmdReady]

theorem rspValid_false_iff (s : State) : rspValid false s = true ↔ s.phase = .responding := by
  simp [rspValid]

theorem cmdReady_of_ne_ready {s : State} (h : s.phase ≠ .ready) : cmdReady false s = false := by
  simp [cmdReady, h]

/-- R71: where the edge ahead accepts a command. -/
theorem accepts_iff (s : State) : accepts s = true ↔
    (sampledPins s).rst = false ∧ (sampledPins s).cmdValid = true ∧ s.phase = .ready := by
  simp only [accepts, cmdReady, Bool.and_eq_true, Bool.not_eq_true', decide_eq_true_eq]
  tauto

theorem accepts_of_ne_ready {s : State} (h : s.phase ≠ .ready) : accepts s = false := by
  simp [accepts, cmdReady, h]

/-- A command is outstanding from its accepting edge to the edge at which its response is taken. -/
theorem outstanding_iff (s : State) :
    s.outstanding = true ↔ (∃ left, s.phase = .executing left) ∨ s.phase = .responding := by
  cases h : s.phase <;> simp [State.outstanding, h]

theorem outstanding_of_respondIn {s : State} {k : Nat} (h : s.phase = respondIn k) : s.outstanding = true := by
  cases k with
  | zero => exact (outstanding_iff s).mpr (.inr h)
  | succ k => exact (outstanding_iff s).mpr (.inl ⟨k, h⟩)

theorem outstanding_of_wakeIn {s : State} {k : Nat} (h : s.phase = wakeIn k) : s.outstanding = false := by
  cases k <;> simp [State.outstanding, h, wakeIn]

theorem pendingResponses_of_outstanding {s : State} (h : s.outstanding = true) : pendingResponses s = [s.response] :=
  if_pos h

theorem pendingResponses_of_not_outstanding {s : State} (h : s.outstanding = false) : pendingResponses s = [] :=
  if_neg (by simp [h])

/-! Every edge. -/

/-- An edge at which the engine waits: only the pin sample, the edge count, the handshake and the host's record move,
and a response that leaves the engine goes to the record. -/
structure Waits (s t : State) : Prop where
  state : t = { pastSample s with phase := t.phase, taken := t.taken }
  record : t.taken ++ pendingResponses t = s.taken ++ pendingResponses s

section
variable {s t : State} (h : Waits s t)
include h

theorem Waits.engine : t.engine = s.engine := (congrArg State.engine h.state).trans rfl
theorem Waits.response : t.response = s.response := (congrArg State.response h.state).trans rfl
theorem Waits.inputs : t.inputs = s.inputs.tail := (congrArg State.inputs h.state).trans rfl
theorem Waits.edges : t.edges = s.edges + 1 := (congrArg State.edges h.state).trans rfl

theorem Waits.mt : t.mt = s.mt := congrArg Engine.mt h.engine
theorem Waits.err : t.err = s.err := congrArg Engine.err h.engine
theorem Waits.cause : t.cause = s.cause := congrArg Engine.cause h.engine

end

/-- The handshake moves and no command starts or ends. -/
theorem waits_of_phase {s : State} {p : Phase}
    (h : ({ pastSample s with phase := p } : State).outstanding = s.outstanding) :
    Waits s { pastSample s with phase := p } := by
  refine ⟨rfl, ?_⟩
  show s.taken ++ pendingResponses { pastSample s with phase := p } = _
  rw [pendingResponses, h]
  rfl

theorem waits_takeResponse {s : State} (h : s.phase = .responding) : Waits s (takeResponse (pastSample s)) := by
  refine ⟨rfl, ?_⟩
  rw [pendingResponses_of_outstanding ((outstanding_iff s).mpr (.inr h)),
    pendingResponses_of_not_outstanding rfl, List.append_nil]
  rfl

/-- Everything an edge can do. -/
theorem step_next {s t : State} (h : step s = .next t) :
    ((sampledPins s).rst = true ∧ t = resetEdge (pastSample s)) ∨
    (accepts s = true ∧ ∃ u, transact (sampledPins s).cmdWord (sampledPins s).cmdData (pastSample s) = .next u ∧
      t = { u with
        phase := .executing (wordLatency (sampledPins s).cmdWord (sampledPins s).cmdData (pastSample s)) }) ∨
    ((sampledPins s).rst = false ∧ accepts s = false ∧ Waits s t) := by
  obtain ⟨hrst, rfl⟩ | ⟨hrst, hphase, hvalid, u, hu, rfl⟩ | ⟨hrst, hphase, -, rfl⟩ | ⟨hrst, hphase, hvalid, rfl⟩ |
    ⟨hrst, hphase, -, rfl⟩ | ⟨hrst, hphase, rfl⟩ | ⟨hrst, left, hphase, rfl⟩ | ⟨hrst, left, hphase, rfl⟩ :=
    clockEdge_next h
  · exact .inl ⟨hrst, rfl⟩
  · exact .inr (.inl ⟨(accepts_iff s).mpr ⟨hrst, hvalid, hphase⟩, u, hu, rfl⟩)
  all_goals rw [pastSample_phase] at hphase
  · exact .inr (.inr ⟨hrst, accepts_of_ne_ready (by simp [hphase]), waits_takeResponse hphase⟩)
  · exact .inr (.inr ⟨hrst, by simp [accepts, hvalid], waits_of_phase rfl⟩)
  · exact .inr (.inr ⟨hrst, accepts_of_ne_ready (by simp [hphase]), waits_of_phase rfl⟩)
  · refine .inr (.inr ⟨hrst, accepts_of_ne_ready (by simp [hphase]), waits_of_phase ?_⟩)
    rw [outstanding_of_inReset hphase, outstanding_of_wakeIn rfl]
  · refine .inr (.inr ⟨hrst, accepts_of_ne_ready (by simp [hphase]), waits_of_phase ?_⟩)
    rw [outstanding_of_wakeIn (k := left + 1) hphase, outstanding_of_wakeIn rfl]
  · refine .inr (.inr ⟨hrst, accepts_of_ne_ready (by simp [hphase]), waits_of_phase ?_⟩)
    rw [outstanding_of_respondIn (k := left + 1) hphase, outstanding_of_respondIn rfl]

/-- Every edge reads one pin sample. -/
theorem step_inputs {s t : State} (h : step s = .next t) : t.inputs = s.inputs.tail := by
  obtain ⟨-, rfl⟩ | ⟨-, u, hu, rfl⟩ | ⟨-, -, hwaits⟩ := step_next h
  · rfl
  · obtain ⟨-, -, hinputs, -⟩ := transact_frame hu
    exact hinputs
  · exact hwaits.inputs

/-- Every edge counts. -/
theorem step_edges {s t : State} (h : step s = .next t) : t.edges = s.edges + 1 := by
  obtain ⟨-, rfl⟩ | ⟨-, u, hu, rfl⟩ | ⟨-, -, hwaits⟩ := step_next h
  · rfl
  · obtain ⟨-, -, -, -, hedges⟩ := transact_frame hu
    exact hedges
  · exact hwaits.edges

/-! Acceptance (R71, R72). -/

/-- An edge that does not accept a command does not look at one. -/
theorem clockEdge_command_ignored {p : PortIn} {s : State}
    (h : ¬ (p.rst = false ∧ p.cmdValid = true ∧ cmdReady p.rst s = true)) (w d : Word) :
    clockEdge { p with cmdWord := w, cmdData := d } s = clockEdge p s := by
  cases hrst : p.rst with
  | true => simp [clockEdge, hrst]
  | false =>
    cases hphase : s.phase with
    | ready =>
      have hvalid : p.cmdValid = false := by simpa [hrst, cmdReady, hphase] using h
      simp [clockEdge, hrst, hphase, hvalid]
    | inReset | waking | executing | responding => simp [clockEdge, hrst, hphase]

/-- An edge without reset that does not accept a command leaves the registers and the response alone. -/
theorem clockEdge_of_not_accepts {p : PortIn} {s : State}
    (h : ¬ (p.rst = false ∧ p.cmdValid = true ∧ cmdReady p.rst s = true)) (hrst : p.rst = false) :
    ∃ t, clockEdge p s = .next t ∧ t.engine = s.engine ∧ t.response = s.response := by
  have hnot : ¬ (s.phase = .ready ∧ p.cmdValid = true) := fun ⟨hphase, hvalid⟩ =>
    h ⟨hrst, hvalid, by rw [hrst, cmdReady_false_iff]; exact hphase⟩
  obtain ⟨t, ht⟩ := clockEdge_goes_on fun _ hphase hvalid => absurd ⟨hphase, hvalid⟩ hnot
  refine ⟨t, ht, ?_⟩
  obtain ⟨hrst', -⟩ | ⟨-, hphase, hvalid, -⟩ | ⟨-, -, -, rfl⟩ | ⟨-, -, -, rfl⟩ | ⟨-, -, -, rfl⟩ | ⟨-, -, rfl⟩ |
    ⟨-, _, -, rfl⟩ | ⟨-, _, -, rfl⟩ := clockEdge_next ht
  · simp [hrst] at hrst'
  · exact absurd ⟨hphase, hvalid⟩ hnot
  all_goals exact ⟨rfl, rfl⟩

/-- Settles O8: the ready phase alone looks at the command, and alone changes a register. -/
theorem acceptanceCondition : Obligations.AcceptanceCondition := by
  refine fun p s => ⟨fun ⟨hrst, hvalid, hready⟩ => ?_, fun h => ⟨clockEdge_command_ignored h, ?_⟩⟩
  · rw [hrst, cmdReady_false_iff] at hready
    exact clockEdge_of_accepts hrst hready hvalid
  · exact clockEdge_of_not_accepts h

/-- Settles O9: a command is outstanding in two phases, which only its own response leaves. -/
theorem oneCommandOutstanding : Obligations.OneCommandOutstanding := by
  refine ⟨fun r s => ?_, fun s t h => ⟨fun haccepts => ?_, fun hrst hout => ?_⟩⟩
  · cases hphase : s.phase <;> simp [cmdReady, State.outstanding, hphase]
  · obtain ⟨hrst, hvalid, hphase⟩ := (accepts_iff s).mp haccepts
    rw [step_of_accepts hrst hphase hvalid] at h
    obtain ⟨u, -, rfl⟩ := acceptCommand_next h
    exact ⟨rfl, rfl⟩
  · rw [rspValid_false_iff]
    obtain ⟨left, hphase⟩ | hphase := (outstanding_iff s).mp hout
    · rw [step_of_executing hrst hphase] at h
      cases h
      exact ⟨fun ⟨hresponding, _⟩ => by simp [hphase] at hresponding, fun _ => outstanding_of_respondIn rfl⟩
    · cases hready : (sampledPins s).rspReady with
      | false =>
        rw [step_of_held hrst hphase hready] at h
        cases h
        exact ⟨fun ⟨_, htake⟩ => by simp at htake, fun _ => hout⟩
      | true =>
        rw [step_of_taken hrst hphase hready] at h
        cases h
        exact ⟨fun _ => rfl, fun hnot => absurd ⟨hphase, rfl⟩ hnot⟩

/-! The accepting edge (log 7). -/

theorem commandLatency_pastSample (i : Instr) (s : State) : commandLatency i (pastSample s) = commandLatency i s := by
  cases i <;> rfl

/-- Settles O6: the accepting edge runs the command the word decodes to. -/
theorem stepRunsTheDecodedCommand : Obligations.StepRunsTheDecodedCommand := by
  intro s p rest i hinputs hrst hvalid hphase hdec
  obtain rfl : sampledPins s = p := by rw [sampledPins, hinputs]; rfl
  have hpast : ({ s with inputs := rest, edges := s.edges + 1 } : State) = pastSample s := by
    rw [pastSample, hinputs]; rfl
  have htransact : transact (sampledPins s).cmdWord (sampledPins s).cmdData (pastSample s) = exec i (pastSample s) := by
    simp [transact, hdec]
  have hlatency : wordLatency (sampledPins s).cmdWord (sampledPins s).cmdData (pastSample s) = commandLatency i s := by
    rw [← commandLatency_pastSample]
    simp [wordLatency, hdec]
  rw [step_of_accepts hrst hphase hvalid, acceptCommand, htransact, hlatency, hpast]
  cases exec i (pastSample s) <;> rfl

theorem wordLatency_of_not_legalWord {w : Word} (h : ¬ legalWord w) (d : Word) (s : State) :
    wordLatency w d s = s.lat.illegal := by
  cases hdec : decode w d with
  | ok i => exact absurd (legalWord_of_decode_ok hdec) h
  | error r => simp [wordLatency, hdec]

/-- Settles O7: a word that is no command raises ILLEGAL at the accepting edge. -/
theorem stepOfAnIllegalWord : Obligations.StepOfAnIllegalWord := by
  intro s p rest hinputs hrst hvalid hphase hnot
  obtain rfl : sampledPins s = p := by rw [sampledPins, hinputs]; rfl
  rw [step_of_accepts hrst hphase hvalid, acceptCommand, transact_of_not_legalWord hnot,
    wordLatency_of_not_legalWord hnot, pastSample, hinputs]
  rfl

/-! The latencies (R73, R242). -/

theorem noReset_sampledPins {k : Nat} {s : State} (h : noReset (k + 1) s) : (sampledPins s).rst = false := by
  unfold noReset at h
  unfold sampledPins
  cases hinputs : s.inputs with
  | nil => rfl
  | cons p rest => exact h p (by simp [hinputs])

theorem noReset_of_inputs_tail {k : Nat} {s t : State} (h : noReset (k + 1) s) (ht : t.inputs = s.inputs.tail) :
    noReset k t := by
  intro p hp
  rw [ht, ← List.drop_one, List.take_drop] at hp
  exact h p (Nat.add_comm 1 k ▸ List.mem_of_mem_drop hp)

theorem noReset_mono {m k : Nat} {s : State} (hmk : m ≤ k) (h : noReset k s) : noReset m s := fun p hp =>
  h p (List.take_subset_take_left s.inputs hmk hp)

theorem runSteps_succ {s t : State} (h : step s = .next t) (k : Nat) : runSteps (k + 1) s = runSteps k t := by
  simp only [runSteps, h]

/-- A wait of n edges, `down n` the phase with n of them left: after m of them the handshake, the samples and the edge
count have moved and nothing else. -/
theorem runSteps_countdown {down : Nat → Phase}
    (hdown : ∀ s n, s.phase = down (n + 1) → (sampledPins s).rst = false →
      step s = .next { pastSample s with phase := down n })
    {m n : Nat} {s : State} (hmn : m ≤ n) (hphase : s.phase = down n) (hno : noReset m s) :
    runSteps m s = .next { s with phase := down (n - m), inputs := s.inputs.drop m, edges := s.edges + m } := by
  induction m generalizing n s with
  | zero => simp [runSteps, ← hphase]
  | succ m ih =>
    obtain ⟨n, rfl⟩ : ∃ k, n = k + 1 := ⟨n - 1, by omega⟩
    rw [runSteps_succ (hdown s n hphase (noReset_sampledPins hno)),
      ih (by omega) rfl (noReset_of_inputs_tail hno rfl)]
    simp [Nat.add_comm 1 m, Nat.add_assoc]

theorem runSteps_respondIn {m n : Nat} {s : State} (hmn : m ≤ n) (hphase : s.phase = respondIn n)
    (hno : noReset m s) :
    runSteps m s = .next { s with phase := respondIn (n - m), inputs := s.inputs.drop m, edges := s.edges + m } :=
  runSteps_countdown (down := respondIn) (fun _ _ hphase hrst => step_of_executing hrst hphase) hmn hphase hno

theorem runSteps_wakeIn {m n : Nat} {s : State} (hmn : m ≤ n) (hphase : s.phase = wakeIn n) (hno : noReset m s) :
    runSteps m s = .next { s with phase := wakeIn (n - m), inputs := s.inputs.drop m, edges := s.edges + m } :=
  runSteps_countdown (down := wakeIn) (fun _ _ hphase hrst => step_of_waking hrst hphase) hmn hphase hno

/-- Settles O10: the wait for a response is a countdown of k + 1 edges. -/
theorem responseAfterLatency : Obligations.ResponseAfterLatency := by
  intro k s hphase hno
  have hphase : s.phase = respondIn (k + 1) := hphase
  refine ⟨fun m hm => ⟨_, runSteps_respondIn (by omega) hphase (noReset_mono (by omega) hno), ?_⟩,
    _, runSteps_respondIn (Nat.le_refl _) hphase hno, ?_, rfl, rfl, rfl⟩
  · show respondIn (k + 1 - m) = respondIn (k - m + 1)
    rw [Nat.sub_add_comm hm]
  · rw [rspValid_false_iff, Nat.sub_self]
    rfl

/-- Settles O14: after the edge that ends reset the wait is a countdown of `LAT_RESET` edges. -/
theorem readyAfterResetLatency : Obligations.ReadyAfterResetLatency := by
  refine ⟨fun _ => rfl, fun s hphase hno => ?_⟩
  have hfirst := step_of_inReset (noReset_sampledPins hno) hphase
  have hrest := noReset_of_inputs_tail (t := { pastSample s with phase := wakeIn s.lat.reset }) hno rfl
  refine ⟨fun m hm => ?_, ?_⟩
  · cases m with
    | zero => exact ⟨s, rfl, cmdReady_of_inReset hphase false⟩
    | succ m =>
      obtain ⟨left, hleft⟩ : ∃ left, s.lat.reset - m = left + 1 := ⟨s.lat.reset - m - 1, by omega⟩
      refine ⟨_, (runSteps_succ hfirst m).trans
        (runSteps_wakeIn (by omega) rfl (noReset_mono (by omega) hrest)), cmdReady_of_ne_ready ?_⟩
      rw [hleft]
      exact nofun
  · refine ⟨_, (runSteps_succ hfirst _).trans (runSteps_wakeIn (Nat.le_refl _) rfl hrest), ?_, rfl⟩
    rw [cmdReady_false_iff, Nat.sub_self]
    rfl

/-! The ports. -/

/-- Settles O11: the response is on the ports while it is valid, and the responding phase holds it until it is taken. -/
theorem responseHeldUntilTaken : Obligations.ResponseHeldUntilTaken := by
  refine ⟨fun r s => ⟨rfl, rfl, rfl, fun hvalid => ⟨if_pos hvalid, if_pos hvalid⟩⟩, fun s hphase hrst => ?_⟩
  exact ⟨(rspValid_false_iff s).mpr hphase, step_of_held hrst hphase, step_of_taken hrst hphase⟩

theorem statusPort_of_statusDefined {s : State} (h : s.statusDefined = true) : statusPort s = statusWord s := if_pos h

/-- Settles O16: STATUS is defined in the ready and waking phases, and is a draw while a command is outstanding. -/
theorem statusPortShowsStatus : Obligations.StatusPortShowsStatus := by
  refine ⟨fun s hphase => ?_, fun s left hphase => ?_, fun s hout => if_neg ?_, fun s t h => step_edges h⟩
  · exact statusPort_of_statusDefined (by simp [State.statusDefined, hphase])
  · exact statusPort_of_statusDefined (by simp [State.statusDefined, hphase])
  · obtain ⟨left, hphase⟩ | hphase := (outstanding_iff s).mp hout
    · simp [State.statusDefined, hphase]
    · simp [State.statusDefined, hphase]

/-- Settles O13: each register as `State.reset` writes it, and STATUS computed from them. -/
theorem resetStateRegisters : Obligations.ResetStateRegisters :=
  ⟨rfl, rfl, rfl, rfl, rfl, rfl, statusWord_reset, rfl, rfl⟩

end Sys2Proof.Machine
end

section
/-! PROOF. What every step keeps: the invariant of 10_state.md R29 with the codes of 60_exceptions.md R201, the error
record (R209), and the state array outside its writers (10_state.md R20). -/

namespace Sys2Proof.Machine

/-! The invariant. -/

/-- An error writes the record and the response, and LENGTH closes the injection with its count. -/
theorem raised_inv {s : State} (h : s.Inv) (e : ErrorCode) : (raised e s).Inv := by
  obtain ⟨hindex, hinjcnt, hexclusive, hclosed, -⟩ := h
  have hcode : errorCode e = 0 ↔ true = false := iff_of_false (errorCode_ne_zero e) nofun
  refine ⟨by rwa [raised_index], raised_injcnt_le e hinjcnt, ?_, ?_, hcode, errorCode_toNat_le e, errorCode_toNat_le e,
    fun _ => rfl⟩
  · rw [raised_inj, raised_valid]
    split
    · exact nofun
    · exact hexclusive
  · rw [raised_inj, raised_injcnt]
    split
    · exact fun _ => rfl
    · exact hclosed

/-- A success leaves the record alone, so only its own registers are to be looked at. -/
theorem Succeeds.inv {s t : State} (h : Succeeds s t) (hs : s.Inv) (hindex : t.index.toNat ≤ 624)
    (hinjcnt : t.injcnt.toNat ≤ 624) (hexclusive : t.inj = true → t.valid = false)
    (hclosed : t.inj = false → t.injcnt = 0) : t.Inv := by
  obtain ⟨-, -, -, -, hrecord, hcause, -, -⟩ := hs
  refine ⟨hindex, hinjcnt, hexclusive, hclosed, ?_, ?_, ?_, fun hne => absurd h.rspErr hne⟩
  · rw [h.cause, h.err]; exact hrecord
  · rw [h.cause]; exact hcause
  · rw [h.rspErr]; exact Nat.zero_le 5

theorem exec_inv {i : Instr} {s t : State} (hs : s.Inv) (h : exec i s = .next t) : t.Inv := by
  have ⟨hindex, hinjcnt, hexclusive, hclosed, _⟩ := hs
  cases i with
  | seed v =>
    rw [execSeed_next h]
    exact Succeeds.inv rfl hs (Nat.le_refl 624) (Nat.zero_le 624) nofun fun _ => rfl
  | next =>
    obtain ⟨-, rfl⟩ | ⟨-, hlt, rfl⟩ | ⟨-, -, rfl⟩ := execNext_next h
    · exact raised_inv hs _
    · exact Succeeds.inv rfl hs ((toNat_succ_of_lt hlt).trans_le hlt) hinjcnt hexclusive hclosed
    · exact Succeeds.inv rfl hs (by decide : 1 ≤ 624) hinjcnt hexclusive hclosed
  | temper v =>
    rw [execTemper_next h]
    exact Succeeds.inv rfl hs hindex hinjcnt hexclusive hclosed
  | untemper v =>
    rw [execUntemper_next h]
    exact Succeeds.inv rfl hs hindex hinjcnt hexclusive hclosed
  | injStart =>
    rw [execInjStart_next h]
    exact Succeeds.inv rfl hs hindex (Nat.zero_le 624) (fun _ => rfl) nofun
  | injWord u v =>
    obtain ⟨-, rfl⟩ | ⟨-, -, rfl⟩ | ⟨hinj, hlt, rfl⟩ := execInjWord_next h
    · exact raised_inv hs _
    · exact raised_inv hs _
    · exact Succeeds.inv rfl hs hindex ((toNat_succ_of_lt hlt).trans_le hlt) hexclusive
        fun hopen => absurd hopen (by simp [hinj])
  | injCommit =>
    obtain ⟨-, rfl⟩ | ⟨-, -, rfl⟩ | ⟨-, -, rfl⟩ := execInjCommit_next h
    · exact raised_inv hs _
    · exact raised_inv hs _
    · exact Succeeds.inv rfl hs (Nat.le_refl 624) (Nat.zero_le 624) nofun fun _ => rfl
  | peek idx =>
    obtain ⟨-, rfl⟩ | ⟨-, -, rfl⟩ | ⟨-, -, rfl⟩ := execPeek_next h
    · exact raised_inv hs _
    · exact raised_inv hs _
    · exact Succeeds.inv rfl hs hindex hinjcnt hexclusive hclosed

theorem transact_inv {w d : Word} {s t : State} (hs : s.Inv) (h : transact w d s = .next t) : t.Inv := by
  obtain ⟨i, -, htr⟩ | ⟨r, -, htr⟩ := transact_cases w d s
  · exact exec_inv hs (htr ▸ h)
  · rw [htr] at h
    cases h
    exact raised_inv hs _

/-- The invariant speaks of the registers and the response alone. -/
theorem inv_of_eq {s t : State} (h : s.Inv) (hengine : t.engine = s.engine) (hresponse : t.response = s.response) :
    t.Inv := by
  simp only [State.engine, Engine.mk.injEq] at hengine
  simp only [State.response, Response.mk.injEq] at hresponse
  obtain ⟨-, hindex, hvalid, hinj, hinjcnt, herr, hcause⟩ := hengine
  obtain ⟨hdata, hcode⟩ := hresponse
  simpa only [State.Inv, hindex, hvalid, hinj, hinjcnt, herr, hcause, hdata, hcode] using h

/-- Settles O41: clause by clause on the reset values. -/
theorem invariantAtReset : Obligations.InvariantAtReset :=
  ⟨Nat.le_refl 624, Nat.zero_le 624, nofun, fun _ => rfl, ⟨fun _ => rfl, fun _ => rfl⟩, Nat.zero_le 5,
    Nat.zero_le 5, fun _ => rfl⟩

/-- Settles O40: a reset edge leaves the registers of reset, an accepting edge what its command leaves, and any other
edge the registers and the response as they were. -/
theorem invariantKeptByEveryStep : Obligations.InvariantKeptByEveryStep := by
  intro s t hs h
  obtain ⟨-, rfl⟩ | ⟨-, u, hu, rfl⟩ | ⟨-, -, hwaits⟩ := step_next h
  · exact invariantAtReset
  · exact inv_of_eq (transact_inv (s := pastSample s) hs hu) rfl rfl
  · exact inv_of_eq hs hwaits.engine hwaits.response

/-- Settles O42: a command stops only with INJCNT above 624, and an edge only with its command. -/
theorem engineNeverStops : Obligations.EngineNeverStops := by
  intro s hs
  obtain ⟨-, hinjcnt, -⟩ := hs
  exact ⟨clockEdge_goes_on fun _ _ _ => transact_goes_on _ _ (s := pastSample s) hinjcnt,
    fun w d => transact_goes_on w d hinjcnt⟩

/-! The error record. -/

theorem step_record_sticky {s t : State} (h : step s = .next t) (hrst : (sampledPins s).rst = false) :
    (s.err = true → t.err = true) ∧ (s.cause ≠ 0 → t.cause ≠ 0) ∧
      (accepts s = false → t.err = s.err ∧ t.cause = s.cause) := by
  obtain ⟨hreset, -⟩ | ⟨haccepts, u, hu, rfl⟩ | ⟨-, -, hwaits⟩ := step_next h
  · simp [hrst] at hreset
  · obtain ⟨e, rfl⟩ | hok := transact_outcome hu
    · exact ⟨fun _ => rfl, fun _ => errorCode_ne_zero e, by simp [haccepts]⟩
    · exact ⟨hok.err.trans, fun hne => hok.cause.trans_ne hne, by simp [haccepts]⟩
  · rw [hwaits.err, hwaits.cause]
    exact ⟨id, id, fun _ => ⟨rfl, rfl⟩⟩

/-- Settles O36: an error writes the record, a success and a waiting edge leave it, reset clears it. -/
theorem errorRecordIsSticky : Obligations.ErrorRecordIsSticky := by
  refine ⟨fun w d s t h => transact_record h, fun s t h hrst => step_record_sticky h hrst, fun s t h hrst => ?_⟩
  rw [step_of_rst hrst] at h
  cases h
  exact ⟨rfl, rfl⟩

/-! The state array. -/

/-- Settles O39: without reset only an accepted command changes the array, and of the commands its writers. -/
theorem stateArrayWriters : Obligations.StateArrayWriters := by
  intro s t h hne
  obtain ⟨hrst, -⟩ | ⟨haccepts, u, hu, rfl⟩ | ⟨-, -, hwaits⟩ := step_next h
  · exact .inl hrst
  · obtain ⟨i, hdec, htr⟩ | ⟨r, -, htr⟩ := transact_cases (sampledPins s).cmdWord (sampledPins s).cmdData (pastSample s)
    · obtain ⟨hwriters, -⟩ := registerWriters i (pastSample s) u (htr.symm.trans hu)
      exact .inr ⟨haccepts, i, hdec, hwriters hne⟩
    · rw [htr] at hu
      cases hu
      exact absurd (raised_mt .illegal (pastSample s)) hne
  · exact absurd hwaits.mt hne

end Sys2Proof.Machine
end

section
/-! PROOF. Tempering and untempering on all words (40_generator.md R100, 41_recoverer.md R140, R141). Each tempering
step is `y ^^^ N y` for a map N that respects XOR. Squaring such a map doubles the exponent of N, the cross terms
cancelling, and enough masked shifts leave no bit: so each step has a power of two as period, and one repeat fewer
inverts it. A linear map is determined by the 32 words with one bit, which gives the fixed points. -/

namespace Sys2Proof.Machine

/-! Maps that respect XOR. -/

def IsXorLinear (f : Word → Word) : Prop := ∀ x y, f (x ^^^ y) = f x ^^^ f y

theorem IsXorLinear.map_zero {f : Word → Word} (hf : IsXorLinear f) : f 0#32 = 0#32 := by
  have h := hf 0#32 0#32
  rwa [BitVec.xor_self, BitVec.xor_self] at h

theorem IsXorLinear.comp {f g : Word → Word} (hf : IsXorLinear f) (hg : IsXorLinear g) : IsXorLinear (f ∘ g) := by
  intro x y
  rw [Function.comp_apply, hg, hf]
  rfl

theorem IsXorLinear.iterate {f : Word → Word} (hf : IsXorLinear f) (k : Nat) : IsXorLinear f^[k] := by
  induction k with
  | zero => exact fun _ _ => rfl
  | succ k ih => exact ih.comp hf

theorem IsXorLinear.and_const {f : Word → Word} (hf : IsXorLinear f) (m : Word) :
    IsXorLinear fun y => f y &&& m := by
  intro x y
  simp only [hf x y]
  ext i hi
  simp [Bool.and_xor_distrib_right]

theorem isXorLinear_shiftLeft (n : Nat) : IsXorLinear (· <<< n) := fun x y => BitVec.shiftLeft_xor_distrib x y n

theorem isXorLinear_shiftRight (n : Nat) : IsXorLinear (· >>> n) := fun x y => BitVec.ushiftRight_xor_distrib x y n

/-- A property of words that XOR keeps holds of every word when it holds of 0 and of the words with one bit. -/
theorem word_induction {P : Word → Prop} (zero : P 0#32) (bit : ∀ i, i < 32 → P (BitVec.twoPow 32 i))
    (xor : ∀ x y, P x → P y → P (x ^^^ y)) (y : Word) : P y := by
  suffices h : ∀ k y, k ≤ 32 → (∀ i, k ≤ i → y.getLsbD i = false) → P y from
    h 32 y (Nat.le_refl _) fun i hi => BitVec.getLsbD_of_ge y i hi
  intro k
  induction k with
  | zero => intro y _ hy; rwa [show y = 0#32 from BitVec.eq_of_getLsbD_eq fun i _ => by simp [hy i]]
  | succ k ih =>
    intro y hk hy
    cases hbit : y.getLsbD k with
    | false =>
      refine ih y (by omega) fun i hi => ?_
      obtain rfl | hlt := Nat.eq_or_lt_of_le hi
      · exact hbit
      · exact hy i hlt
    | true =>
      have hclear : P (y ^^^ BitVec.twoPow 32 k) := by
        refine ih _ (by omega) fun i hi => ?_
        rw [BitVec.getLsbD_xor, BitVec.getLsbD_twoPow]
        obtain rfl | hlt := Nat.eq_or_lt_of_le hi
        · simp [hbit]; omega
        · simp [hy i hlt]; omega
      have h := xor _ _ hclear (bit k hk)
      rwa [BitVec.xor_assoc, BitVec.xor_self, BitVec.xor_zero] at h

/-- Two linear maps that agree on the words with one bit are equal. -/
theorem IsXorLinear.ext {f g : Word → Word} (hf : IsXorLinear f) (hg : IsXorLinear g)
    (h : ∀ i, i < 32 → f (BitVec.twoPow 32 i) = g (BitVec.twoPow 32 i)) (y : Word) : f y = g y :=
  word_induction (P := fun y => f y = g y) (by rw [hf.map_zero, hg.map_zero]) h
    (fun x y hx hy => by rw [hf, hg, hx, hy]) y

/-! A step `y ^^^ N y`. -/

def xorStep (N : Word → Word) (y : Word) : Word := y ^^^ N y

theorem IsXorLinear.xorStep {N : Word → Word} (hN : IsXorLinear N) : IsXorLinear (xorStep N) := by
  intro x y
  simp only [Machine.xorStep, hN x y]
  ac_rfl

/-- The cross terms of a square cancel. -/
theorem xorStep_xorStep {N : Word → Word} (hN : IsXorLinear N) (y : Word) :
    xorStep N (xorStep N y) = xorStep (N ∘ N) y := by
  calc y ^^^ N y ^^^ N (y ^^^ N y)
      = y ^^^ (N y ^^^ N y) ^^^ N (N y) := by rw [hN]; ac_rfl
    _ = y ^^^ N (N y) := by rw [BitVec.xor_self, BitVec.xor_zero]

theorem xorStep_iterate {N : Word → Word} (hN : IsXorLinear N) (k : Nat) (y : Word) :
    (xorStep N)^[2 ^ k] y = xorStep N^[2 ^ k] y := by
  induction k generalizing y with
  | zero => rfl
  | succ k ih =>
    rw [pow_succ, Nat.mul_two, Function.iterate_add_apply, ih, ih, xorStep_xorStep (hN.iterate _),
      Function.iterate_add]

/-- When the powers of N vanish the step has a period. -/
theorem xorStep_periodic {N : Word → Word} (hN : IsXorLinear N) {k : Nat} (hnil : ∀ y, N^[2 ^ k] y = 0#32) (y : Word) :
    (xorStep N)^[2 ^ k] y = y := by
  rw [xorStep_iterate hN, xorStep, hnil, BitVec.xor_zero]

theorem repeatTimes_eq_iterate {α : Type} (body : α → α) (k : Nat) (a : α) : repeatTimes body k a = body^[k] a := by
  induction k generalizing a with
  | zero => rfl
  | succ k ih => exact ih (body a)

/-! The four steps of R100. -/

def shiftU (y : Word) : Word := (y >>> 11) &&& maskD
def shiftS (y : Word) : Word := (y <<< 7) &&& maskB
def shiftT (y : Word) : Word := (y <<< 15) &&& maskC
def shiftL (y : Word) : Word := y >>> 18

theorem stepU_eq : stepU = xorStep shiftU := rfl
theorem stepS_eq : stepS = xorStep shiftS := rfl
theorem stepT_eq : stepT = xorStep shiftT := rfl
theorem stepL_eq : stepL = xorStep shiftL := rfl

theorem isXorLinear_shiftU : IsXorLinear shiftU := (isXorLinear_shiftRight 11).and_const maskD
theorem isXorLinear_shiftS : IsXorLinear shiftS := (isXorLinear_shiftLeft 7).and_const maskB
theorem isXorLinear_shiftT : IsXorLinear shiftT := (isXorLinear_shiftLeft 15).and_const maskC
theorem isXorLinear_shiftL : IsXorLinear shiftL := isXorLinear_shiftRight 18

/-- Four right shifts by 11 leave no bit. -/
theorem stepU_period (y : Word) : stepU^[4] y = y := by
  rw [stepU_eq]
  refine xorStep_periodic isXorLinear_shiftU (k := 2) (fun y => ?_) y
  have h : y >>> (11 + 11 + 11 + 11) = 0#32 := BitVec.ushiftRight_eq_zero (by decide)
  simp only [Nat.reducePow, Function.iterate_succ_apply, Function.iterate_zero_apply, shiftU,
    BitVec.ushiftRight_and_distrib, ← BitVec.shiftRight_add, h, BitVec.zero_and]

/-- Eight left shifts by 7 leave no bit; four leave some. -/
theorem stepS_period (y : Word) : stepS^[8] y = y := by
  rw [stepS_eq]
  refine xorStep_periodic isXorLinear_shiftS (k := 3) (fun y => ?_) y
  have h : y <<< (7 + 7 + 7 + 7 + 7 + 7 + 7 + 7) = 0#32 := BitVec.shiftLeft_eq_zero (by decide)
  simp only [Nat.reducePow, Function.iterate_succ_apply, Function.iterate_zero_apply, shiftS,
    BitVec.shiftLeft_and_distrib, ← BitVec.shiftLeft_add, h, BitVec.zero_and]

/-- Two left shifts by 15 leave bits 30 and 31, which the shifted mask clears. -/
theorem stepT_period (y : Word) : stepT (stepT y) = y := by
  rw [stepT_eq]
  refine xorStep_periodic isXorLinear_shiftT (k := 1) (fun y => ?_) y
  have h : maskC <<< 15 &&& maskC = 0#32 := by decide
  simp only [Nat.reducePow, Function.iterate_succ_apply, Function.iterate_zero_apply, shiftT,
    BitVec.shiftLeft_and_distrib, BitVec.and_assoc, h, BitVec.and_zero]

/-- Two right shifts by 18 leave no bit. -/
theorem stepL_period (y : Word) : stepL (stepL y) = y := by
  rw [stepL_eq]
  refine xorStep_periodic isXorLinear_shiftL (k := 1) (fun y => ?_) y
  have h : y >>> (18 + 18) = 0#32 := BitVec.ushiftRight_eq_zero (by decide)
  simp only [Nat.reducePow, Function.iterate_succ_apply, Function.iterate_zero_apply, shiftL,
    ← BitVec.shiftRight_add, h]

/-! `UT` inverts `T` (R141). -/

theorem untemper_eq (y : Word) : untemper y = stepU^[3] (stepS^[7] (stepT (stepL y))) := by
  rw [untemper, untemperWith, repeatTimes_eq_iterate, repeatTimes_eq_iterate]

theorem untemper_temper (y : Word) : untemper (temper y) = y := by
  rw [untemper_eq, temper, stepL_period, stepT_period, ← Function.iterate_succ_apply, stepS_period,
    ← Function.iterate_succ_apply, stepU_period]

theorem temper_untemper (y : Word) : temper (untemper y) = y := by
  rw [untemper_eq, temper, ← Function.iterate_succ_apply' stepU, stepU_period, ← Function.iterate_succ_apply' stepS,
    stepS_period, stepT_period, stepL_period]

/-- Settles O23: the last steps of one are undone by the first of the other, down to the operand. -/
theorem untemperInvertsTemper : Obligations.UntemperInvertsTemper := fun y => ⟨untemper_temper y, temper_untemper y⟩

/-- Settles O22: UNTEMPER answers UT of the operand, the only preimage because UT undoes T. -/
theorem untemperResponds : Obligations.UntemperResponds := fun y _ =>
  ⟨untemper y, rfl, temper_untemper y, fun x h => by rw [← h, untemper_temper]⟩

/-- Settles O25: the tempered word 0x1 needs seven s-repeats and the tempered word 0x800 three u-repeats. -/
theorem untemperCountsCannotBeReduced : Obligations.UntemperCountsCannotBeReduced :=
  ⟨⟨0x1, by decide⟩, ⟨0x800, by decide⟩, fun _ => rfl⟩

/-- Settles O21: `T` is its four steps. -/
theorem temperResponds : Obligations.TemperResponds := fun _ _ => ⟨_, _, _, _, rfl, rfl, rfl, rfl, rfl⟩

/-! The fixed points. -/

theorem temper_eq_comp : temper = stepL ∘ stepT ∘ stepS ∘ stepU := rfl

theorem isXorLinear_temper : IsXorLinear temper := by
  rw [temper_eq_comp, stepL_eq, stepT_eq, stepS_eq, stepU_eq]
  exact isXorLinear_shiftL.xorStep.comp (isXorLinear_shiftT.xorStep.comp
    (isXorLinear_shiftS.xorStep.comp isXorLinear_shiftU.xorStep))

/-- The linear map that takes the word with bit i alone to word i of a list. -/
def columnsMap : List Word → Word → Word
  | [], _ => 0#32
  | c :: cs, y => (if y.getLsbD 0 = true then c else 0#32) ^^^ columnsMap cs (y >>> 1)

theorem isXorLinear_columnsMap (cs : List Word) : IsXorLinear (columnsMap cs) := by
  induction cs with
  | nil => exact fun _ _ => (BitVec.xor_self).symm
  | cons c cs ih =>
    intro x y
    have hbit : (if (x ^^^ y).getLsbD 0 = true then c else 0#32) =
        (if x.getLsbD 0 = true then c else 0#32) ^^^ (if y.getLsbD 0 = true then c else 0#32) := by
      rw [BitVec.getLsbD_xor]
      cases x.getLsbD 0 <;> cases y.getLsbD 0 <;> simp
    rw [columnsMap, hbit, BitVec.ushiftRight_xor_distrib, ih]
    simp only [columnsMap]
    ac_rfl

/-- The solution of `T(y) ^^^ y = z` by Gaussian elimination: the bits of y but 1, 4 and 6, which are free. -/
def temperSolve : Word → Word := columnsMap
  [0x00000000, 0x00000000, 0x00002004, 0x00000000, 0x60401020, 0x50902E09, 0x00020200, 0x00040080,
    0x40081120, 0x50001C2D, 0x40001C29, 0x60001821, 0x50103E09, 0x51932C29, 0x02044088, 0x24488100,
    0x08913204, 0x50001E29, 0x40001821, 0x50102E29, 0x81833204, 0x02000081, 0x604410A1, 0x50902F09,
    0x00020000, 0x00040480, 0x00080100, 0x00102204, 0x00200400, 0x620058A8, 0x3050AE29, 0x01020200]

theorem temperSolve_spec (y : Word) : temperSolve (xorStep temper y) = xorStep (· &&& 0x52) y := by
  have hleft : IsXorLinear (temperSolve ∘ xorStep temper) :=
    (isXorLinear_columnsMap _).comp isXorLinear_temper.xorStep
  have hright : IsXorLinear (xorStep (· &&& 0x52)) :=
    (IsXorLinear.and_const (f := id) (fun _ _ => rfl) 0x52).xorStep
  exact hleft.ext hright (by decide) y

/-- A word with no bit but 1, 4 and 6 is one of eight. -/
theorem mem_of_eq_and {y : Word} (h : y = y &&& 0x52) : y ∈ [0x00, 0x02, 0x10, 0x12, 0x40, 0x42, 0x50, 0x52] := by
  have hsmall : y.toNat < 0x53 := by
    rw [h, BitVec.toNat_and]
    exact Nat.lt_succ_of_le Nat.and_le_right
  have hcheck : ∀ n < 0x53, BitVec.ofNat 32 n = BitVec.ofNat 32 n &&& 0x52 →
      BitVec.ofNat 32 n ∈ [0x00, 0x02, 0x10, 0x12, 0x40, 0x42, 0x50, 0x52] := by decide
  simpa only [BitVec.ofNat_toNat, BitVec.setWidth_eq] using hcheck y.toNat hsmall (by simpa using h)

theorem temper_eq_self_iff (y : Word) : temper y = y ↔ y ∈ [0x00, 0x02, 0x10, 0x12, 0x40, 0x42, 0x50, 0x52] := by
  have hfixed : ∀ y ∈ [0x00, 0x02, 0x10, 0x12, 0x40, 0x42, 0x50, 0x52], temper y = y :=
    List.forall_iff_forall_mem.mp (by decide)
  refine ⟨fun h => mem_of_eq_and ?_, hfixed y⟩
  have hsolve := temperSolve_spec y
  rw [xorStep, h, BitVec.xor_self, temperSolve, (isXorLinear_columnsMap _).map_zero] at hsolve
  exact BitVec.xor_eq_zero_iff.mp hsolve.symm

theorem untemper_eq_self_iff (y : Word) : untemper y = y ↔ temper y = y :=
  ⟨fun h => by rw [← h, temper_untemper, h], fun h => by rw [← h, untemper_temper, h]⟩

/-- Settles O24: T(y) ^^^ y = 0 leaves only bits 1, 4 and 6 free, and UT fixes what T fixes. -/
theorem temperFixedPoints : Obligations.TemperFixedPoints := fun y =>
  ⟨temper_eq_self_iff y, (untemper_eq_self_iff y).trans (temper_eq_self_iff y)⟩

end Sys2Proof.Machine
end

section
/-! PROOF. Cloning (41_recoverer.md R146, R147): an injection of 624 words writes them in order, INJ_WORD with U = 1
writes what U = 0 writes of the untempered word, and the clone of 624 outputs stands at the source's place in the
sequence of 40_generator.md R104. -/

namespace Sys2Proof.Machine

/-! Loading words. -/

theorem transact_injStart (d : Word) (s : State) : transact 0x00000005 d s = execInjStart s :=
  transact_encodeWord .injStart d s

theorem transact_injWord (d : Word) (s : State) : transact 0x00000006 d s = execInjWord false d s :=
  transact_encodeWord (.injWord false d) d s

theorem transact_injWordU (d : Word) (s : State) : transact 0x00000016 d s = execInjWord true d s :=
  transact_encodeWord (.injWord true d) d s

/-- INJ.WORD.U of a word is INJ.WORD of its untempering (30_encoding.md R76). -/
theorem transact_injWordU_eq (y : Word) (s : State) :
    transact 0x00000016 y s = transact 0x00000006 (untemper y) s := by
  rw [transact_injWordU, transact_injWord]
  rfl

/-- The state between two words of an injection that began at s: `ws` are the words written. -/
structure Loaded (s : State) (ws : List Word) (t : State) : Prop where
  inj : t.inj = true
  injcnt : t.injcnt.toNat = ws.length
  words : ∀ (i : Nat) (h : i < 624), (hi : i < ws.length) → t.mt[i] = ws[i]
  err : t.err = s.err
  cause : t.cause = s.cause

/-- One word more. -/
theorem Loaded.injWord {s t : State} {ws : List Word} (h : Loaded s ws t) (hlen : ws.length < 624) (w : Word) :
    ∃ u, transact 0x00000006 w t = .next u ∧ Loaded s (ws ++ [w]) u ∧ u.response = ⟨w, 0⟩ := by
  have hlt : t.injcnt.toNat < 624 := h.injcnt ▸ hlen
  refine ⟨_, (transact_injWord w t).trans (execInjWord_of_lt false w h.inj hlt), ⟨h.inj, ?_, fun i hi hilen => ?_,
    h.err, h.cause⟩, rfl⟩
  · rw [toNat_succ_of_lt hlt, h.injcnt, List.length_append, List.length_singleton]
  · show (t.mt.set t.injcnt.toNat w)[i] = (ws ++ [w])[i]
    simp only [h.injcnt, Vector.getElem_set]
    by_cases hold : i < ws.length
    · rw [if_neg (by omega), List.getElem_append_left hold, h.words i hi hold]
    · obtain rfl : i = ws.length := by rw [List.length_append, List.length_singleton] at hilen; omega
      rw [if_pos rfl, List.getElem_concat_length rfl]

theorem runCommands_load {s t : State} {pre : List Word} (ws : List Word) (h : Loaded s pre t)
    (hlen : pre.length + ws.length ≤ 624) :
    ∃ u rs, runCommands (ws.map fun w => (0x00000006, w)) t = some (u, rs) ∧ Loaded s (pre ++ ws) u ∧
      ∀ r ∈ rs, r.err = 0 := by
  induction ws generalizing t pre with
  | nil => exact ⟨t, [], rfl, by simpa using h, by simp⟩
  | cons w ws ih =>
    rw [List.length_cons] at hlen
    obtain ⟨u, hu, hloaded, hresp⟩ := h.injWord (by omega) w
    obtain ⟨v, rs, hrun, hv, hrs⟩ := ih hloaded (by rw [List.length_append, List.length_singleton]; omega)
    rw [List.append_assoc] at hv
    exact ⟨v, _, runCommands_cons_some (c := (0x00000006, w)) hu hrun, hv,
      List.forall_mem_cons.mpr ⟨by rw [hresp], hrs⟩⟩

/-- LOAD of 624 words from any state: INJ.START opens the injection, each word goes to its place, and INJ.COMMIT finds
all 624. -/
theorem runCommands_loadCommands {ws : List Word} (hlen : ws.length = 624) (s : State) :
    ∃ t rs, runCommands (loadCommands ws) s = some (t, rs) ∧
      (∀ (i : Nat) (h : i < 624), t.mt[i] = ws[i]) ∧ t.valid = true ∧ t.index = 624 ∧ t.inj = false ∧
      t.injcnt = 0 ∧ t.err = s.err ∧ t.cause = s.cause ∧ ∀ r ∈ rs, r.err = 0 := by
  obtain ⟨s0, hstart, hresp, hopen⟩ :
      ∃ s0, transact 0x00000005 0 s = .next s0 ∧ s0.response = ⟨0, 0⟩ ∧ Loaded s [] s0 :=
    ⟨_, transact_injStart 0 s, rfl, rfl, rfl, nofun, rfl, rfl⟩
  obtain ⟨u, rs, hrun, hloaded, hrs⟩ := runCommands_load ws hopen (by rw [hlen]; decide)
  have hfull : u.injcnt = 624#10 := BitVec.eq_of_toNat_eq (hloaded.injcnt.trans hlen)
  have hcommit := (transact_injCommit 0 u).trans (execInjCommit_of_full hloaded.inj hfull)
  refine ⟨_, _, runCommands_cons_some (c := (0x00000005, 0)) hstart
    (runCommands_concat (c := (0x00000007, 0)) hrun hcommit), fun i hi => hloaded.words i hi (by simpa [hlen]), rfl,
    rfl, rfl, rfl, hloaded.err, hloaded.cause, ?_⟩
  exact List.forall_mem_cons.mpr ⟨by rw [hresp], List.forall_mem_append.mpr ⟨hrs, List.forall_mem_singleton.mpr rfl⟩⟩

/-! CLONE is LOAD of the untempered words (30_encoding.md R83). -/

theorem runCommands_injWordU_eq (ys : List Word) (rest : List (Word × Word)) (s : State) :
    runCommands ((ys.map fun y => (0x00000016, y)) ++ rest) s =
      runCommands (((ys.map untemper).map fun w => (0x00000006, w)) ++ rest) s := by
  induction ys generalizing s with
  | nil => rfl
  | cons y ys ih => simp only [List.map_cons, List.cons_append, runCommands, transact_injWordU_eq, ih]

theorem runCommands_cloneCommands (ys : List Word) (s : State) :
    runCommands (cloneCommands ys) s = runCommands (loadCommands (ys.map untemper)) s := by
  simp only [cloneCommands, loadCommands, List.cons_append, runCommands, runCommands_injWordU_eq]

/-- Settles O49: CLONE runs as LOAD of the untempered words, and LOAD leaves its words in their places. -/
theorem cloneLoadsTheUntemperedWords : Obligations.CloneLoadsTheUntemperedWords := by
  intro ys s
  obtain ⟨t, rs, hrun, hwords, hvalid, hindex, hinj, hinjcnt, herr, hcause, hrs⟩ :=
    runCommands_loadCommands (ws := ys.toList.map untemper) (by simp) s
  refine ⟨t, rs, (runCommands_cloneCommands ys.toList s).trans hrun, ?_, hvalid, hindex, hinj, hinjcnt, herr, hcause,
    hrs, hrun⟩
  ext i hi
  simp [hwords i hi]

/-! NEXT after NEXT along the sequence. -/

theorem runCommands_nextCommands_readsAt {X : Nat → Word} (hX : isTwistSequence X) (m : Nat) {n : Nat} {s : State}
    (h : readsAt X n s) :
    ∃ u, runCommands (nextCommands m) s = some (u, streamResponses X n m) ∧ readsAt X (n + m) u := by
  induction m generalizing n s with
  | zero => exact ⟨s, rfl, h⟩
  | succ m ih =>
    obtain ⟨t, ht, hresp, hat⟩ := execNext_readsAt hX h
    obtain ⟨u, hrun, hu⟩ := ih hat
    refine ⟨u, ?_, by rwa [Nat.add_right_comm] at hu⟩
    rw [streamResponses_succ, ← hresp]
    exact runCommands_cons_some (c := (0x00000002, 0)) ((transact_next 0 s).trans ht) hrun

/-- A usable state of the invariant reads the sequence its array begins, from its cursor on. -/
theorem readsAt_index {X : Nat → Word} {s : State} (hv : s.valid = true) (hi : s.index.toNat ≤ 624)
    (h : beginsWith X s.mt) : readsAt X s.index.toNat s :=
  ⟨hv, hi, 0, by simpa [beginsWith, fromGeneration] using h, by simp⟩

theorem isTwistSequence_zero : isTwistSequence fun _ => 0 := fun _ => by simp [mixBits]

/-- Settles O48: the sequence of zeros follows the recurrence, and `T(0)` is 0. -/
theorem zeroStateStaysZero : Obligations.ZeroStateStaysZero := by
  intro s k hs hv hmt
  obtain ⟨hindex, -⟩ := hs
  have hbegin : beginsWith (fun _ => 0) s.mt := fun i hi => by simp [hmt]
  obtain ⟨t, hrun, -, -, g, hzero, -⟩ := runCommands_nextCommands_readsAt isTwistSequence_zero k
    (readsAt_index hv hindex hbegin)
  refine ⟨t, ?_, ?_⟩
  · rw [hrun, streamResponses]
    simp [List.map_const', show temper 0#32 = 0#32 by decide]
  · ext i hi
    simp [← hzero i hi, fromGeneration]

/-! Clone fidelity. -/

/-- The sequence from word n on. -/
def fromWord (X : Nat → Word) (n i : Nat) : Word := X (n + i)

theorem isTwistSequence_fromWord {X : Nat → Word} (hX : isTwistSequence X) (n : Nat) :
    isTwistSequence (fromWord X n) := fun k => by
  simpa only [fromWord, Nat.add_assoc] using hX (n + k)

theorem streamResponses_fromWord (X : Nat → Word) (n k m : Nat) :
    streamResponses (fromWord X n) k m = streamResponses X (n + k) m := by
  simp [streamResponses, fromWord, Nat.add_assoc]

/-- The untempered outputs from word n on are the words of the sequence. -/
theorem getElem_untempered_stream (X : Nat → Word) (n m i : Nat)
    (h : i < (((streamResponses X n m).map fun r => r.data).map untemper).length) :
    (((streamResponses X n m).map fun r => r.data).map untemper)[i] = fromWord X n i := by
  simp [streamResponses, fromWord, untemper_temper]

/-- Settles O50: the source's outputs from word n on are 624 tempered words of its sequence X, so the clone's array
begins X from word n on and its cursor stands where the source's does. -/
theorem cloneFidelity : Obligations.CloneFidelity := by
  intro s t hs hv
  obtain ⟨hindex, -⟩ := hs
  obtain ⟨X, hX, hbegin⟩ := exists_sequence_of_array s.mt
  generalize hn : s.index.toNat = n at hindex
  obtain ⟨s1, hsource, hs1⟩ := runCommands_nextCommands_readsAt hX 624 (readsAt_index hv (by omega) hbegin)
  rw [hn] at hsource hs1
  have hlen : (((streamResponses X n 624).map fun r => r.data).map untemper).length = 624 := by
    simp [length_streamResponses]
  obtain ⟨t1, rs, hclone, hwords, hvalid, hcursor, -, -, -, -, hrs⟩ := runCommands_loadCommands hlen t
  have ht1 : readsAt (fromWord X n) 624 t1 := readsAt_of_beginsWith hvalid hcursor fun i hi => by
    rw [hwords i hi, getElem_untempered_stream]
  refine ⟨s1, t1, _, rs, hsource, (runCommands_cloneCommands _ t).trans hclone, hrs, fun m => ?_⟩
  obtain ⟨s2, hs2, -⟩ := runCommands_nextCommands_readsAt hX m hs1
  obtain ⟨t2, ht2, -⟩ := runCommands_nextCommands_readsAt (isTwistSequence_fromWord hX n) m ht1
  rw [streamResponses_fromWord] at ht2
  exact ⟨s2, t2, _, hs2, ht2, length_streamResponses X (n + 624) m⟩

end Sys2Proof.Machine
end

section
/-! PROOF. The machine of edges refines the machine of transactions (20_memory.md R59, 30_encoding.md R72, R73): a
command's registers and response depend on the registers alone, and of the edges only the accepting ones run one. -/

namespace Sys2Proof.Machine

/-! A command depends on the registers alone. -/

theorem engine_eq_of_withoutRecord {s t : State} (h : s.withoutRecord = t.withoutRecord) (herr : s.err = t.err)
    (hcause : s.cause = t.cause) : s.engine = t.engine := by
  obtain ⟨hmt, hindex, hvalid, hinj, hinjcnt⟩ := withoutRecord_inj.mp h
  simp only [State.engine, hmt, hindex, hvalid, hinj, hinjcnt, herr, hcause]

theorem shown_eq_some {o : Host.Outcome State Fault Refusal} {e : Engine} {r : Response} (h : shown o = some (e, r)) :
    ∃ t, o = .next t ∧ t.withoutRecord = e ∧ t.response = r := by
  cases o with
  | next t =>
    simp only [shown_next, Option.some_inj, Prod.mk.injEq] at h
    exact ⟨t, rfl, h⟩
  | fault | refused => cases h

/-- The record after a command follows from the record before it and the code of the response (R209). -/
theorem transact_record_congr {w d : Word} {s s' t t' : State} (ht : transact w d s = .next t)
    (ht' : transact w d s' = .next t') (hcode : t'.rspErr = t.rspErr) (herr : s.err = s'.err)
    (hcause : s.cause = s'.cause) : t'.err = t.err ∧ t'.cause = t.cause := by
  obtain ⟨hraise, hkeep⟩ := transact_record ht
  obtain ⟨hraise', hkeep'⟩ := transact_record ht'
  by_cases h0 : t.rspErr = 0
  · obtain ⟨he, hc⟩ := hkeep h0
    obtain ⟨he', hc'⟩ := hkeep' (hcode.trans h0)
    exact ⟨by rw [he, he', herr], by rw [hc, hc', hcause]⟩
  · obtain ⟨he, hc⟩ := hraise h0
    obtain ⟨he', hc'⟩ := hraise' (hcode.trans_ne h0)
    exact ⟨by rw [he, he'], by rw [hc, hc', hcode]⟩

theorem transact_same_engine {w d : Word} {s s' t : State} (h : s.engine = s'.engine)
    (ht : transact w d s = .next t) :
    ∃ t', transact w d s' = .next t' ∧ t.engine = t'.engine ∧ t.response = t'.response := by
  have hshown := shown_transact w d (s := s) (s' := s') (congrArg (fun e => { e with err := false, cause := 0 }) h)
  rw [ht, shown_next] at hshown
  obtain ⟨t', ht', hregs, hresp⟩ := shown_eq_some hshown.symm
  obtain ⟨herr, hcause⟩ := transact_record_congr ht ht' (congrArg Response.err hresp) (congrArg Engine.err h)
    (congrArg Engine.cause h)
  exact ⟨t', ht', engine_eq_of_withoutRecord hregs.symm herr.symm hcause.symm, hresp.symm⟩

theorem runCommands_cons_eq_some {c : Word × Word} {cs : List (Word × Word)} {s u : State} {rs : List Response}
    (h : runCommands (c :: cs) s = some (u, rs)) :
    ∃ t rs', transact c.1 c.2 s = .next t ∧ runCommands cs t = some (u, rs') ∧ rs = t.response :: rs' := by
  cases ht : transact c.1 c.2 s with
  | next t =>
    rw [runCommands_cons ht, Option.map_eq_some_iff] at h
    obtain ⟨⟨v, rs'⟩, hrun, hv⟩ := h
    cases hv
    exact ⟨t, rs', rfl, hrun, rfl⟩
  | fault | refused => simp [runCommands, ht] at h

/-- A command sequence from two states with the same registers: the same registers after it, and the same responses. -/
theorem runCommands_same_engine {cs : List (Word × Word)} {s s' u : State} {rs : List Response}
    (hrun : runCommands cs s = some (u, rs)) (h : s.engine = s'.engine) :
    ∃ u', runCommands cs s' = some (u', rs) ∧ u.engine = u'.engine := by
  induction cs generalizing s s' rs with
  | nil => cases hrun; exact ⟨s', rfl, h⟩
  | cons c cs ih =>
    obtain ⟨t, rs, ht, hrest, rfl⟩ := runCommands_cons_eq_some hrun
    obtain ⟨t', ht', hengine, hresp⟩ := transact_same_engine h ht
    obtain ⟨u', hrun', hu⟩ := ih hrest hengine
    exact ⟨u', hresp ▸ runCommands_cons_some ht' hrun', hu⟩

/-! Runs of edges. -/

/-- What the host has taken or is about to take. -/
def answered (s : State) : List Response := s.taken ++ pendingResponses s

/-- The refinement of one run: the commands accepted in it give its registers and its responses. -/
def Refines (k : Nat) (s t : State) : Prop :=
  ∃ u rs, runCommands (acceptedCommands k s) s = some (u, rs) ∧ u.engine = t.engine ∧ answered s ++ rs = answered t

theorem acceptedCommands_succ {s s1 : State} (h : step s = .next s1) (k : Nat) : acceptedCommands (k + 1) s =
    (if accepts s = true then [((sampledPins s).cmdWord, (sampledPins s).cmdData)] else []) ++
      acceptedCommands k s1 := by
  simp only [acceptedCommands, h]

theorem runSteps_succ_eq_next {k : Nat} {s t : State} (h : runSteps (k + 1) s = .next t) :
    ∃ s1, step s = .next s1 ∧ runSteps k s1 = .next t := by
  cases h1 : step s with
  | next s1 => exact ⟨s1, rfl, (runSteps_succ h1 k).symm.trans h⟩
  | fault | refused => simp [runSteps, h1] at h

/-- An edge at which the engine waits runs no command. -/
theorem Refines.of_waits {k : Nat} {s s1 t : State} (h : step s = .next s1) (haccepts : accepts s = false)
    (hwaits : Waits s s1) (hrest : Refines k s1 t) : Refines (k + 1) s t := by
  obtain ⟨u1, rs, hrun1, hu1, hanswers⟩ := hrest
  obtain ⟨u, hrun, hu⟩ := runCommands_same_engine hrun1 hwaits.engine
  refine ⟨u, rs, ?_, hu.symm.trans hu1, ?_⟩
  · rw [acceptedCommands_succ h, if_neg (by simp [haccepts])]
    exact hrun
  · rw [← hanswers, answered, answered, hwaits.record]

/-- An accepting edge runs its command, whose response is then outstanding. -/
theorem Refines.of_accepts {k : Nat} {s s1 t : State} (h : step s = .next s1) (haccepts : accepts s = true)
    (hrest : Refines k s1 t) : Refines (k + 1) s t := by
  obtain ⟨hrst, hvalid, hphase⟩ := (accepts_iff s).mp haccepts
  obtain ⟨v, hv, rfl⟩ := acceptCommand_next ((step_of_accepts hrst hphase hvalid).symm.trans h)
  obtain ⟨u1, rs, hrun1, hu1, hanswers⟩ := hrest
  obtain ⟨v', hv', hengine, hresp⟩ := transact_same_engine (s := pastSample s) (s' := s) rfl hv
  obtain ⟨u, hrun, hu⟩ := runCommands_same_engine hrun1 (s' := v') hengine
  obtain ⟨-, htaken, -⟩ := transact_frame hv
  refine ⟨u, v'.response :: rs, ?_, hu.symm.trans hu1, ?_⟩
  · rw [acceptedCommands_succ h, if_pos haccepts]
    exact runCommands_cons_some (c := ((sampledPins s).cmdWord, (sampledPins s).cmdData)) hv' hrun
  · have hbefore : answered s = s.taken := by
      rw [answered, pendingResponses_of_not_outstanding (by simp [State.outstanding, hphase]), List.append_nil]
    rw [← hanswers, hbefore, ← hresp]
    show s.taken ++ v.response :: rs = v.taken ++ [v.response] ++ rs
    rw [htaken, pastSample_taken, List.append_assoc, List.singleton_append]

theorem refines_of_runSteps {k : Nat} {s t : State} (hno : noReset k s) (hrun : runSteps k s = .next t) :
    Refines k s t := by
  induction k generalizing s with
  | zero =>
    cases hrun
    exact ⟨t, [], rfl, rfl, List.append_nil _⟩
  | succ k ih =>
    obtain ⟨s1, hstep, hrest⟩ := runSteps_succ_eq_next hrun
    have ih := ih (noReset_of_inputs_tail hno (step_inputs hstep)) hrest
    obtain ⟨hrst, -⟩ | ⟨haccepts, -⟩ | ⟨-, haccepts, hwaits⟩ := step_next hstep
    · simp [noReset_sampledPins hno] at hrst
    · exact ih.of_accepts hstep haccepts
    · exact ih.of_waits hstep haccepts hwaits

/-- Settles O52, by induction on the edges. -/
theorem edgesRefineTransactions : Obligations.EdgesRefineTransactions := fun _ _ _ _ hno hrun =>
  refines_of_runSteps hno hrun

end Sys2Proof.Machine
end

section
/-! PROOF. Unwritten state words (10_state.md R20, R29 item 5): an array that agrees with the engine's wherever a
command may read can stand in its place at every edge. -/

namespace Sys2Proof.Machine

/-- m agrees with the array of s in the words a command may read: all of them while VALID = 1, those written in the
open injection otherwise. -/
def AgreesOnWritten (s : State) (m : StateArray) : Prop :=
  (s.valid = true → m = s.mt) ∧
    (s.inj = true → ∀ (i : Nat) (h : i < 624), i < s.injcnt.toNat → m[i] = s.mt[i])

theorem agreeOnWritten_iff {s t : State} : agreeOnWritten s t ↔ ∃ m, t = { s with mt := m } ∧ AgreesOnWritten s m := by
  constructor
  · rintro ⟨hrest, hvalid, hinj⟩
    exact ⟨t.mt, by rw [← hrest], hvalid, hinj⟩
  · rintro ⟨m, rfl, hvalid, hinj⟩
    exact ⟨rfl, hvalid, hinj⟩

theorem agreesOnWritten_self (s : State) : AgreesOnWritten s s.mt := ⟨fun _ => rfl, fun _ _ _ _ => rfl⟩

/-- o from s, with another array in place of s's, goes where it goes from s, but for unwritten words. -/
def FollowsTo (o : Host.Outcome State Fault Refusal) (s' : State) : Prop :=
  ∃ m', o = .next { s' with mt := m' } ∧ AgreesOnWritten s' m'

section
variable {s s' : State} {m : StateArray} (hm : AgreesOnWritten s m)
include hm

/-- An error reads no state word and opens none to a reader. -/
theorem followsTo_raised (e : ErrorCode) : FollowsTo (raiseError e { s with mt := m }) (raised e s) := by
  obtain ⟨hvalid, hinj⟩ := hm
  refine ⟨m, ?_, ?_, ?_⟩
  · cases e <;> rfl
  · rwa [raised_valid, raised_mt]
  · rw [raised_inj, raised_injcnt, raised_mt]
    split
    · exact nofun
    · exact hinj

/-- With VALID = 1 there is no unwritten word. -/
theorem followsTo_exec_of_valid {i : Instr} (hv : s.valid = true) (h : exec i s = .next s') :
    FollowsTo (exec i { s with mt := m }) s' := by
  obtain ⟨hvalid, -⟩ := hm
  rw [hvalid hv]
  exact ⟨s'.mt, h, agreesOnWritten_self s'⟩

/-- INJ_WORD writes the word after those already written. -/
theorem followsTo_execInjWord (hv : s.valid = false) {u : Bool} {d : Word} (h : execInjWord u d s = .next s') :
    FollowsTo (execInjWord u d { s with mt := m }) s' := by
  obtain ⟨hinj, rfl⟩ | ⟨hinj, hfull, rfl⟩ | ⟨hinj, hlt, rfl⟩ := execInjWord_next h
  · rw [execInjWord_of_not_inj (s := { s with mt := m }) hinj]
    exact followsTo_raised hm .sequence
  · rw [execInjWord_of_full (s := { s with mt := m }) hinj hfull]
    exact followsTo_raised hm .length
  · obtain ⟨-, hwords⟩ := hm
    refine ⟨_, execInjWord_of_lt (s := { s with mt := m }) u d hinj hlt, fun hv' => ?_, fun _ i hi hwritten => ?_⟩
    · simp [hv] at hv'
    · rw [toNat_succ_of_lt hlt] at hwritten
      simp only [writeWord, Vector.getElem_set]
      split
      · rfl
      · exact hwords hinj i hi (by omega)

/-- INJ_COMMIT opens the array to readers when every word of it has been written. -/
theorem followsTo_execInjCommit (h : execInjCommit s = .next s') :
    FollowsTo (execInjCommit { s with mt := m }) s' := by
  obtain ⟨hinj, rfl⟩ | ⟨hinj, hne, rfl⟩ | ⟨hinj, hfull, rfl⟩ := execInjCommit_next h
  · rw [execInjCommit_of_not_inj (s := { s with mt := m }) hinj]
    exact followsTo_raised hm .sequence
  · rw [execInjCommit_of_not_full (s := { s with mt := m }) hinj hne]
    exact followsTo_raised hm .length
  · obtain ⟨-, hwords⟩ := hm
    refine ⟨m, execInjCommit_of_full (s := { s with mt := m }) hinj hfull, fun _ => ?_, nofun⟩
    exact Vector.ext fun i hi => hwords hinj i hi (by simpa [hfull] using hi)

theorem followsTo_exec {i : Instr} (h : exec i s = .next s') : FollowsTo (exec i { s with mt := m }) s' := by
  obtain hv | hv := Bool.eq_false_or_eq_true s.valid
  · exact followsTo_exec_of_valid hm hv h
  · cases i with
    | seed v =>
      rw [execSeed_next h]
      exact ⟨expand v m, rfl, by rw [expand_indep v m s.mt]; exact agreesOnWritten_self _⟩
    | next =>
      rw [exec, execNext_of_not_valid hv] at h
      cases h
      rw [exec, execNext_of_not_valid (s := { s with mt := m }) hv]
      exact followsTo_raised hm .notReady
    | temper v => rw [execTemper_next h]; exact ⟨m, rfl, hm⟩
    | untemper v => rw [execUntemper_next h]; exact ⟨m, rfl, hm⟩
    | injStart =>
      rw [execInjStart_next h]
      exact ⟨m, rfl, nofun, fun _ _ _ hwritten => absurd hwritten (Nat.not_lt_zero _)⟩
    | injWord u d => exact followsTo_execInjWord hm hv h
    | injCommit => exact followsTo_execInjCommit hm h
    | peek idx =>
      obtain ⟨hge, rfl⟩ | ⟨hlt, -, rfl⟩ | ⟨hv', -⟩ := execPeek_next h
      · rw [exec, execPeek_of_ge hge]
        exact followsTo_raised hm .range
      · rw [exec, execPeek_of_not_valid (s := { s with mt := m }) hlt hv]
        exact followsTo_raised hm .notReady
      · simp [hv] at hv'

theorem followsTo_transact {w d : Word} (h : transact w d s = .next s') :
    FollowsTo (transact w d { s with mt := m }) s' := by
  cases hdec : decode w d with
  | ok i =>
    simp only [transact, hdec] at h ⊢
    exact followsTo_exec hm h
  | error r =>
    simp only [transact, hdec] at h ⊢
    rw [raiseError_next h]
    exact followsTo_raised hm .illegal

end

/-! Edges. -/

theorem wordLatency_mt (w d : Word) (s : State) (m : StateArray) :
    wordLatency w d { s with mt := m } = wordLatency w d s := by
  unfold wordLatency
  cases decode w d with
  | ok i => cases i <;> rfl
  | error r => rfl

/-- A reset edge leaves an array that does not depend on the one before it; an accepting edge runs its command; any
other edge leaves the array alone. -/
theorem followsTo_clockEdge {p : PortIn} {s s' : State} {m : StateArray} (hm : AgreesOnWritten s m)
    (h : clockEdge p s = .next s') : FollowsTo (clockEdge p { s with mt := m }) s' := by
  obtain ⟨hrst, rfl⟩ | ⟨hrst, hphase, hvalid, u, hu, rfl⟩ | ⟨hrst, hphase, hready, rfl⟩ |
    ⟨hrst, hphase, hvalid, rfl⟩ | ⟨hrst, hphase, hready, rfl⟩ | ⟨hrst, hphase, rfl⟩ | ⟨hrst, left, hphase, rfl⟩ |
    ⟨hrst, left, hphase, rfl⟩ := clockEdge_next h
  · exact ⟨_, clockEdge_of_rst hrst _, agreesOnWritten_self _⟩
  · obtain ⟨m', hu', hm'⟩ := followsTo_transact hm hu
    refine ⟨m', ?_, hm'⟩
    rw [clockEdge_of_accepts (s := { s with mt := m }) hrst hphase hvalid, acceptCommand, hu', wordLatency_mt]
    rfl
  · exact ⟨m, by simp [clockEdge, hrst, hphase, hready, takeResponse, State.response], hm⟩
  · exact ⟨m, by simp [clockEdge, hrst, hphase, hvalid], hm⟩
  · exact ⟨m, by simp [clockEdge, hrst, hphase, hready], hm⟩
  · exact ⟨m, by simp [clockEdge, hrst, hphase], hm⟩
  · exact ⟨m, by simp [clockEdge, hrst, hphase], hm⟩
  · exact ⟨m, by simp [clockEdge, hrst, hphase], hm⟩

/-- Settles O51: the two states differ in the array alone, and every field else, the response and the record among
them, follows the same edge. -/
theorem unwrittenWordsAreUnobservable : Obligations.UnwrittenWordsAreUnobservable := by
  intro s t s' hagree h
  obtain ⟨m, rfl, hm⟩ := agreeOnWritten_iff.mp hagree
  obtain ⟨m', hstep, hm'⟩ := followsTo_clockEdge (s := pastSample s) (m := m) hm h
  exact ⟨_, hstep, agreeOnWritten_iff.mpr ⟨m', rfl, hm'⟩, rfl, rfl⟩

end Sys2Proof.Machine
end

section
/-! PROOF. Around the engine: the assembler (30_encoding.md R82, R83), systems of engines (60_exceptions.md R215) and
the byte order of a bus adapter (20_memory.md R52). -/

namespace Sys2Proof.Machine

open Laws

/-! The assembler. -/

theorem assembleLine_of_wellFormed {l : AsmLine} (h : l.wellFormed = true) :
    assembleLine l = some ((asmCommands l).map encode) := if_pos h

theorem assembleLine_of_not_wellFormed {l : AsmLine} (h : l.wellFormed = false) : assembleLine l = none :=
  if_neg (by simp [h])

theorem fitsData_of_lt {v : Nat} (h : v < 2 ^ 32) : fitsData v = true := decide_eq_true h

theorem fitsData_of_ge {v : Nat} (h : 2 ^ 32 ≤ v) : fitsData v = false := decide_eq_false (by omega)

/-- The word of a PEEK line as the number R82 gives. -/
theorem encodeWord_peek_ofNat {i : Nat} (h : i < 1024) :
    encodeWord (.peek (BitVec.ofNat 10 i)) = BitVec.ofNat 32 (i * 65536 + 8) := by
  apply BitVec.eq_of_toNat_eq
  rw [LegalEncoding.peekWord_toNat, BitVec.toNat_ofNat, BitVec.toNat_ofNat]
  omega

/-- Settles O54: a line whose operand fits is encoded, and any other is not well formed. -/
theorem assemblerTable : Obligations.AssemblerTable := by
  refine ⟨fun v h => ?_, rfl, rfl, rfl, fun i h => ?_, fun v h => ?_, fun i h => ?_⟩
  · have hfits := fitsData_of_lt h
    exact ⟨assembleLine_of_wellFormed hfits, assembleLine_of_wellFormed hfits, assembleLine_of_wellFormed hfits,
      assembleLine_of_wellFormed hfits, assembleLine_of_wellFormed hfits⟩
  · rw [assembleLine_of_wellFormed (l := .peek i) (decide_eq_true h), ← encodeWord_peek_ofNat h]
    rfl
  · have hfits := fitsData_of_ge h
    exact ⟨assembleLine_of_not_wellFormed hfits, assembleLine_of_not_wellFormed hfits,
      assembleLine_of_not_wellFormed hfits, assembleLine_of_not_wellFormed hfits, assembleLine_of_not_wellFormed hfits⟩
  · exact assembleLine_of_not_wellFormed (decide_eq_false (by omega))

theorem fitsArray_words {ws : List Word} (h : ws.length = 624) : fitsArray (ws.map BitVec.toNat) = true := by
  have hall (w : Word) : fitsData w.toNat = true := fitsData_of_lt w.isLt
  simp [fitsArray, h, hall]

theorem fitsArray_of_length_ne {ws : List Nat} (h : ws.length ≠ 624) : fitsArray ws = false := by
  simp [fitsArray, h]

/-- The commands of a LOAD or a CLONE line as R83 lists them. -/
theorem encode_asmCommands_load (ws : List Word) :
    (asmCommands (.load (ws.map BitVec.toNat))).map encode = loadCommands ws := by
  simp [asmCommands, loadCommands, encode, encodeWord, encodeData, asmData]

theorem encode_asmCommands_clone (ys : List Word) :
    (asmCommands (.clone (ys.map BitVec.toNat))).map encode = cloneCommands ys := by
  simp [asmCommands, cloneCommands, encode, encodeWord, encodeData, asmData]

/-- Settles O55: 624 words fit and give their 626 commands; another count does not fit. -/
theorem pseudoCommandExpansions : Obligations.PseudoCommandExpansions := by
  refine ⟨fun _ => rfl, fun ws h => ⟨?_, ?_, ?_, ?_⟩, fun ws h => ?_⟩
  · rw [assembleLine_of_wellFormed (l := .load _) (fitsArray_words h), encode_asmCommands_load]
  · simp [loadCommands, h]
  · rw [assembleLine_of_wellFormed (l := .clone _) (fitsArray_words h), encode_asmCommands_clone]
  · simp [cloneCommands, h]
  · exact ⟨assembleLine_of_not_wellFormed (fitsArray_of_length_ne h),
      assembleLine_of_not_wellFormed (fitsArray_of_length_ne h)⟩

/-! Systems. -/

/-- Settles O56: an edge of engine k writes place k of the system and no other. -/
theorem enginesShareNothing : Obligations.EnginesShareNothing := by
  intro nEngines k sys sys' h
  obtain ⟨t, ht, rfl⟩ := systemStep_eq_some.mp h
  refine ⟨fun j hj => ?_, by rw [ht, Vector.getElem_set_self]⟩
  exact Vector.getElem_set_ne _ _ fun e => hj (Fin.ext e.symm)

/-! The bus adapter. -/

/-- A word has the same byte in each lane as its four bytes make. -/
theorem fromBus_toBus (o : BusByteOrder) (w : Word) : fromBus o (toBus o w) = w := by
  have hbyte {k : Nat} (hk : k < 4) : laneByte o.lanes[k] (fromBus o (toBus o w)) = laneByte o.lanes[k] w := by
    rw [laneByte_fromBus, toBus_getElem]
  refine eq_of_laneBytes fun l => ?_
  obtain h | h | h | h := lanes_cover o l
  · rw [h]; exact hbyte (by decide)
  · rw [h]; exact hbyte (by decide)
  · rw [h]; exact hbyte (by decide)
  · rw [h]; exact hbyte (by decide)

theorem toBus_fromBus (o : BusByteOrder) (bytes : BusWord) : toBus o (fromBus o bytes) = bytes :=
  Vector.ext fun k hk => by rw [toBus_getElem, laneByte_fromBus]

/-- Settles O57: a word and its bytes determine each other, so the pins and the reads through an adapter are those of
the ports. -/
theorem busAdapterMovesWholeWords : Obligations.BusAdapterMovesWholeWords := fun o =>
  ⟨fromBus_toBus o, toBus_fromBus o, fun w d s => by rw [offerBytes, fromBus_toBus, fromBus_toBus],
    fun r s => ⟨fromBus_toBus o _, fromBus_toBus o _⟩⟩

end Sys2Proof.Machine
end
